-- ==== Sys2Proof/Word.lean ====
section
/-! DEFINITION. The plain data the engine computes with: bytes, 64-bit words, the twelve accumulator
lanes and the 96-byte block (spec 00_scope.md rules R10, R13). -/

namespace Sys2Proof

/-- A byte, an unsigned value 0..255 (R13). -/
abbrev Byte := BitVec 8

/-- A lane value, data word, seed or short-path accumulator: 64 bits unsigned, and every sum and
product wraps modulo 2^64 (R11, R13). -/
abbrev Word := BitVec 64

/-- The twelve accumulator lanes `x[0..11]` (R10 LANES, R21). -/
abbrev Lanes := Vector Word 12

/-- A block: exactly 96 bytes. R64 makes the length a precondition of the mixer; here it is part of
the type. -/
abbrev Block := Vector Byte 96

end Sys2Proof
end

