-- ==== Sys2Proof/Config.lean ====
section
/-! DEFINITION. What an implementation fixes: the constant set of a variant, frozen to BHE-A
(00_scope.md rules R5 to R9, R14), and the values the spec leaves open, as constants without a body. The open values carry no number
of an instance (DESIGN CHOICE, log 14). -/

namespace Sys2Proof.Config

/-- One frozen constant set ("a `Variant` record", 00_scope.md section 4). The laws of
43_oneshot_and_laws.md hold for every variant; numbers are those of `bheA`. -/
structure Variant where
  /-- Left-rotation count of each BlockMixer step (R5). -/
  rot : Vector Nat 12
  /-- Lane offset of the rotated lane B (R6). -/
  bo : Nat
  /-- Lane offset of the lane C that receives the propagated addition (R6). -/
  co : Nat
  /-- Priming multipliers, one for each group of three lanes (R7). -/
  kg : Vector Word 4
  /-- Short-path multiplier of accumulator `a` (R8). -/
  ka : Word
  /-- Short-path multiplier of accumulator `b` (R8). -/
  kb : Word
  /-- Short-path chunk rotation of `a` (R9). -/
  ra : Nat
  /-- Short-path chunk rotation of `b` (R9). -/
  rb : Nat
  /-- First final rotation of `a` (R9). -/
  e1a : Nat
  /-- First final rotation of `b` (R9). -/
  e1b : Nat
  /-- Second final rotation of `a` (R9). -/
  e2a : Nat
  /-- Second final rotation of `b` (R9). -/
  e2b : Nat
  deriving DecidableEq, Repr

/-- Variant BHE-A (R5 to R9). -/
def bheA : Variant where
  rot := #v[13, 29, 41, 7, 53, 19, 37, 59, 23, 47, 31, 11]
  bo := 1
  co := 2
  kg := #v[0x9E3779B97F4A7C15, 0xC2B2AE3D27D4EB4F, 0x165667B19E3779F9, 0xD6E8FEB86659FD93]
  ka := 0x87C37B91114253D5
  kb := 0x4CF5AD432745937F
  ra := 29
  rb := 33
  e1a := 32
  e1b := 32
  e2a := 29
  e2b := 35

/-- The three lanes of every BlockMixer step are different lanes, the hypothesis under which R62 says
the mixer is reversible "for any rotation counts and any wiring". -/
abbrev Variant.DistinctWiring (v : Variant) : Prop :=
  v.bo % 12 ≠ 0 ∧ v.co % 12 ≠ 0 ∧ v.bo % 12 ≠ v.co % 12

/-- FREE VALUE (R130, U10, log 2): the content of accumulator lane `i` after the reset numbered `n` of a
run. -/
opaque resetLane : (n i : Nat) → Word

/-- FREE VALUE (R130, U10, log 2): the content of `pending` after the reset numbered `n` of a run. -/
opaque resetPending : (n : Nat) → BitVec 7

/-- FREE VALUE (R130, U10, log 2): the content of `totalLength` after the reset numbered `n` of a run. -/
opaque resetTotalLength : (n : Nat) → BitVec 64

/-- FREE VALUE (R22, R29, U11, log 3): what buffer byte `j` reads as while it holds no known value, in the
epoch numbered `n` of a run. -/
opaque staleByte : (n j : Nat) → Byte

end Sys2Proof.Config
end

