-- ==== Sys2Proof/Machine/Bytes.lean ====
section
/-! DEFINITION. Byte order and rotation: the helpers every encoding and every mixing operation uses
(00_scope.md rule R12; 20_memory.md rule R33). -/

namespace Sys2Proof.Machine

/-- The value of a little-endian byte string: byte `k` weighs 2^(8k) (R33). -/
def leNat : List Byte → Nat
  | [] => 0
  | b :: bs => b.toNat + 256 * leNat bs

/-- The `n` low bytes of a number, least significant first: the inverse of `leNat`. -/
def leBytes : Nat → Nat → List Byte
  | 0, _ => []
  | n + 1, v => BitVec.ofNat 8 v :: leBytes n (v / 256)

/-- `LE64` of an 8-byte string (R13, R33). -/
def le64 (s : List Byte) : Word := BitVec.ofNat 64 (leNat s)

/-- `LE32` of a 4-byte string (R13). -/
def le32 (s : List Byte) : BitVec 32 := BitVec.ofNat 32 (leNat s)

/-- `bytes_LE64`: the eight bytes of a word, least significant first (R13). -/
def bytesLE64 (w : Word) : List Byte := leBytes 8 w.toNat

/-- The substring `s[i .. i+n)` (R13). -/
def slice (s : List Byte) (i n : Nat) : List Byte := (s.drop i).take n

/-- 64-bit left rotation, the formula of R12 (from general knowledge, K1; the direction is D3).
A count above 63 gives the operand back (log 12). -/
def rotl64 (x : Word) (r : Nat) : Word :=
  if r = 0 then x else (x <<< r) ||| (x >>> (64 - r))

/-- The inverse rotation of R12: `rotr64(x, r) = rotl64(x, (64 - r) mod 64)`. -/
def rotr64 (x : Word) (r : Nat) : Word := rotl64 x ((64 - r) % 64)

end Sys2Proof.Machine
end

