-- ==== Sys2Proof/Syntax.lean ====
section
/-! DEFINITION. The command set (30_encoding.md rules R48, R52, R54): the four host commands, the
status codes, the decoder's rejections, the digest, and a row of the opcode table. -/

namespace Sys2Proof

/-- The abstract commands of R52, one constructor for each row of the opcode table.
The engine has no other instruction (R57). -/
inductive Instr where
  /-- INIT: create or re-create the context from up to 16 key bytes (R42, R80). -/
  | init (key : List Byte)
  /-- UPDATE: append `data` to the message (R43, R81). -/
  | update (data : List Byte)
  /-- FINAL: return the digest of all bytes supplied so far (R44, R85). -/
  | final
  /-- ONESHOT: hash a whole message in one command (R45, R101). -/
  | oneshot (key : List Byte) (message : List Byte)
  deriving DecidableEq, Repr

/-- The six status codes of R48. Codes 06 to FF are never produced (U19), so there are exactly six. -/
inductive Status where
  /-- The command completed. -/
  | ok
  /-- Reserved opcode, non-zero RSV, or non-zero KLEN on UPDATE or FINAL (R111). -/
  | illegalCmd
  /-- KLEN above 16 on INIT or ONESHOT (R112). -/
  | keyTooLong
  /-- The frame's length disagrees with its fields (R113). -/
  | badFrame
  /-- UPDATE or FINAL while no context exists (R114). -/
  | noContext
  /-- UPDATE would carry the byte count past 2^64 - 1 (R115). -/
  | lenOverflow
  deriving DecidableEq, Repr

/-- Why the decoder rejects a frame (R50): the causes that depend on the frame alone. -/
inductive Reject where
  | illegalCmd
  | keyTooLong
  | badFrame
  deriving DecidableEq, Repr

/-- The digest, "a pair of 64-bit unsigned lanes" whose equality is bitwise (R54). -/
structure Digest where
  d0 : Word
  d1 : Word
  deriving DecidableEq, Repr

/-- A row of the opcode map (30_encoding.md section 5): a command word `cw` matches the row when
`cw &&& mask = pattern`. -/
structure OpcodeRow where
  mnemonic : String
  mask : BitVec 32
  pattern : BitVec 32
  deriving DecidableEq, Repr

end Sys2Proof
end

