-- ==== Sys2Proof/Machine/BlockMixer.lean ====
section
/-! DEFINITION. The BlockMixer (40_blockmixer.md): STEP, BLOCKMIX and its inverse, PRIME, the padded
final block and its four mixes. Every operation is a pure function of its operands and of a variant. -/

namespace Sys2Proof.Machine

open Sys2Proof.Config

/-- The block held in `s[off .. off+96)` (R13); past the end of `s` zero bytes follow (log 13). -/
def blockAt (s : List Byte) (off : Nat) : Block :=
  let t := s.drop off
  Vector.ofFn fun j => t.getD j.val 0

/-- `d[i] = LE64(blk[8i .. 8i+8))` (R33). -/
def blockLane (blk : Block) (i : Nat) : Word := le64 (slice blk.toList (8 * i) 8)

/-- Lane B of step `i`, the lane that is rotated (R6). -/
def laneB (v : Variant) (i : Fin 12) : Fin 12 := Fin.ofNat 12 (i.val + v.bo)

/-- Lane C of step `i`, the lane that receives the propagated addition (R6). -/
def laneC (v : Variant) (i : Fin 12) : Fin 12 := Fin.ofNat 12 (i.val + v.co)

/-- Write one lane. -/
def putLane (x : Lanes) (i : Fin 12) (w : Word) : Lanes := x.set i.val w i.isLt

/-- Assignment 1 of R61: add the data word into lane A. -/
def stepAdd (i : Fin 12) (d : Word) (x : Lanes) : Lanes := putLane x i (x[i] + d)

/-- Assignment 2 of R61: rotate lane B left. -/
def stepRotate (v : Variant) (i : Fin 12) (x : Lanes) : Lanes :=
  putLane x (laneB v i) (rotl64 x[laneB v i] v.rot[i])

/-- Assignment 3 of R61: XOR lane A into lane B. -/
def stepXor (v : Variant) (i : Fin 12) (x : Lanes) : Lanes :=
  putLane x (laneB v i) (x[laneB v i] ^^^ x[i])

/-- Assignment 4 of R61: add lane B into lane C. -/
def stepPropagate (v : Variant) (i : Fin 12) (x : Lanes) : Lanes :=
  putLane x (laneC v i) (x[laneC v i] + x[laneB v i])

/-- STEP(i), its four assignments in this order (R61). -/
def mixStep (v : Variant) (i : Fin 12) (d : Word) (x : Lanes) : Lanes :=
  stepPropagate v i (stepXor v i (stepRotate v i (stepAdd i d x)))

/-- The steps in increasing order (R60). -/
def stepOrder : List (Fin 12) := [0, 1, 2, 3, 4, 5, 6, 7, 8, 9, 10, 11]

/-- BLOCKMIX: the twelve steps, each seeing the lanes as the one before left them (R60). -/
def blockmix (v : Variant) (x : Lanes) (blk : Block) : Lanes :=
  stepOrder.foldl (fun y i => mixStep v i (blockLane blk i.val) y) x

/-- UNSTEP(i): the four assignments of STEP undone in reverse order (R62). -/
def unmixStep (v : Variant) (i : Fin 12) (d : Word) (x : Lanes) : Lanes :=
  let x1 := putLane x (laneC v i) (x[laneC v i] - x[laneB v i])
  let x2 := putLane x1 (laneB v i) (x1[laneB v i] ^^^ x1[i])
  let x3 := putLane x2 (laneB v i) (rotr64 x2[laneB v i] v.rot[i])
  putLane x3 i (x3[i] - d)

/-- The inverse of BLOCKMIX: the steps backwards (R62). -/
def unblockmix (v : Variant) (x : Lanes) (blk : Block) : Lanes :=
  stepOrder.reverse.foldl (fun y i => unmixStep v i (blockLane blk i.val) y) x

/-- `n` consecutive whole blocks of `s`, the first at `off`, mixed in order (R83 step 4, R100). -/
def mixBlocks (v : Variant) (x : Lanes) (s : List Byte) (off : Nat) : Nat → Lanes
  | 0 => x
  | n + 1 => mixBlocks v (blockmix v x (blockAt s off)) s (off + 96) n

/-- PRIME: group `g` of three lanes is `(s1 * KG[g], s2 * KG[g], KG[g])` (R63). -/
def prime (v : Variant) (s1 s2 : Word) : Lanes :=
  #v[s1 * v.kg[0], s2 * v.kg[0], v.kg[0],
     s1 * v.kg[1], s2 * v.kg[1], v.kg[1],
     s1 * v.kg[2], s2 * v.kg[2], v.kg[2],
     s1 * v.kg[3], s2 * v.kg[3], v.kg[3]]

/-- The padded final block: the tail, zeros, and the tail's length in byte 95 (R86 steps 2 and 3). -/
def finalBlock (tail : List Byte) : Block :=
  Vector.ofFn fun j => if j.val = 95 then BitVec.ofNat 8 tail.length else tail.getD j.val 0

/-- The same block mixed `n` times (R86 step 4). -/
def remix (v : Variant) (blk : Block) : Nat → Lanes → Lanes
  | 0, x => x
  | n + 1, x => remix v blk n (blockmix v x blk)

/-- FINALBLOCK on a copy of the lanes: four mixes of the padded block, then lanes 0 and 11 (R86). -/
def finalMix (v : Variant) (x : Lanes) (tail : List Byte) : Digest :=
  let y := remix v (finalBlock tail) 4 x
  ⟨y[0], y[11]⟩

end Sys2Proof.Machine
end

