-- ==== Sys2Proof/Machine/ShortPath.lean ====
section
/-! DEFINITION. The ShortPathMixer (41_shortpath.md): CHUNKMIX, TAILWORDS, SHORTEND, SHORTMIX. -/

namespace Sys2Proof.Machine

open Sys2Proof.Config

/-- The two short-path accumulators, "exactly two 64-bit accumulators" (R28). -/
abbrev ShortAcc := Word × Word

/-- CHUNKMIX, its six assignments in this order (R70). -/
def chunkmix (v : Variant) (acc : ShortAcc) (w0 w1 : Word) : ShortAcc :=
  let a1 := (acc.1 + w0) * v.ka
  let a2 := rotl64 a1 v.ra
  let a3 := a2 + acc.2
  let b1 := (acc.2 + w1) * v.kb
  let b2 := rotl64 b1 v.rb
  let b3 := b2 + a3
  (a3, b3)

/-- The sum of the bytes of `s`, the first shifted by `shift` and each next one by 8 more (R71). -/
def packBytes : List Byte → (shift : Nat) → Word
  | [], _ => 0
  | b :: bs, shift => (b.setWidth 64 <<< shift) + packBytes bs (shift + 8)

/-- TAILWORDS: the last bytes of the message and its length `n` as two words (R71, R72). -/
def tailwords (tail : List Byte) (n : Nat) : Word × Word :=
  (packBytes (tail.take 8) 0, (BitVec.ofNat 64 n <<< 56) + packBytes (tail.drop 8) 0)

/-- SHORTEND, its four assignments in this order (R73). -/
def shortend (v : Variant) (acc : ShortAcc) : ShortAcc :=
  let a1 := rotl64 (acc.1 * v.ka) v.e1a + acc.2
  let b1 := rotl64 (acc.2 * v.kb) v.e1b + a1
  let a2 := rotl64 (a1 * v.ka) v.e2a + b1
  let b2 := rotl64 (b1 * v.kb) v.e2b + a2
  (a2, b2)

/-- The `n` whole 16-byte chunks of `msg` from byte `off` on, in increasing order (R74). -/
def mixChunks (v : Variant) (msg : List Byte) (off : Nat) : Nat → ShortAcc → ShortAcc
  | 0, acc => acc
  | n + 1, acc =>
    mixChunks v msg (off + 16) n
      (chunkmix v acc (le64 (slice msg off 8)) (le64 (slice msg (off + 8) 8)))

/-- SHORTMIX: the whole short path; the tail is mixed as one more chunk, always (R74). -/
def shortmix (v : Variant) (msg : List Byte) (s1 s2 : Word) : Digest :=
  let q := msg.length / 16
  let acc := mixChunks v msg 0 q (s1, s2)
  let t := tailwords (msg.drop (16 * q)) msg.length
  let e := shortend v (chunkmix v acc t.1 t.2)
  ⟨e.1, e.2⟩

end Sys2Proof.Machine
end

