-- ==== Sys2Proof/Machine/Digest.lean ====
section
/-! DEFINITION. DIGEST, "the mathematical function the engine computes" (43_oneshot_and_laws.md rule
R100), and the lanes that stand for a message (10_state.md rule R30). -/

namespace Sys2Proof.Machine

open Sys2Proof.Config

/-- The raw-seed form of the lanes: the seeds in lanes 0 and 1, zeros elsewhere (R21, R80). -/
def rawLanes (s1 s2 : Word) : Lanes := #v[s1, s2, 0, 0, 0, 0, 0, 0, 0, 0, 0, 0]

/-- The block-primed form: PRIME, then one BLOCKMIX for each whole block of the message (R30, R100). -/
def blockLanes (v : Variant) (msg : List Byte) (s1 s2 : Word) : Lanes :=
  mixBlocks v (prime v s1 s2) msg 0 (msg.length / 96)

/-- The bytes of the message after its last whole block, `M[96q .. n)` (R30, R100). -/
def messageTail (msg : List Byte) : List Byte := msg.drop (96 * (msg.length / 96))

/-- DIGEST(M, s1, s2) (R100). -/
def digest (v : Variant) (msg : List Byte) (s1 s2 : Word) : Digest :=
  if msg.length < 96 then shortmix v msg s1 s2
  else finalMix v (blockLanes v msg s1 s2) (messageTail msg)

end Sys2Proof.Machine
end

