-- ==== Sys2Proof/Machine/State.lean ====
section
/-! DEFINITION. The architectural state of one engine instance (10_state.md rule R20), the port and
the responses the host sees, the state after reset (70_reset_and_hazards.md rule R130), and the
reasons a step could stop. -/

namespace Sys2Proof.Machine

/-- The contents of the buffer's data space (20_memory.md rule R34): cells of (offset, byte).
An offset that is not listed holds no known value (R22, R29, R130). -/
abbrev Memory := List Host.Cell

/-- The canonical form: offsets strictly rise and lie in 0..95. An unlisted offset holds no value, so
no listed cell can equal one. -/
abbrev Memory.wf (m : Memory) : Prop :=
  m.Pairwise (fun c d => c.1 < d.1) ∧ ∀ c ∈ m, c.1 < 96

/-- What the host does at the port between two responses (30_encoding.md rule R40;
70_reset_and_hazards.md rules R132, R133). -/
inductive PortEvent where
  /-- A command frame; its end is marked by the transport, so it is a finite byte string. -/
  | command (frame : List Byte)
  /-- Reset applied between commands. -/
  | reset
  /-- Reset applied while the command of `frame` executes: no response (R132). -/
  | resetDuring (frame : List Byte)
  deriving DecidableEq, Repr

/-- The state of one engine instance. The first five fields are the whole architectural state of R20;
the last three are the model's own. -/
structure State where
  /-- Accumulator lanes `h[0..11]` (R21). -/
  h : Lanes
  /-- The block buffer `buf[0..95]` (R22). -/
  buf : Memory
  /-- Count of valid bytes in `buf` (R23). -/
  pending : BitVec 7
  /-- Count of bytes passed to UPDATE since the last INIT (R24). -/
  totalLength : BitVec 64
  /-- A context exists (R25). -/
  valid : Bool
  /-- MODEL: events offered at the port and not yet taken, oldest first (R40, R133). -/
  port : List PortEvent
  /-- MODEL: response frames produced so far, oldest first (R46, R138). -/
  responses : List (List Byte)
  /-- MODEL: the index of the free values in force. -/
  freeCount : Nat
  deriving DecidableEq, Repr

/-- The reasons the machine could stop with a fault: none. Every byte string offered as a frame gets a
response (30_encoding.md rule R50) and every command terminates (43_oneshot_and_laws.md rule R57);
the engine's own errors are responses (60_exceptions.md rule R110), which are next states. -/
inductive Fault where
  deriving DecidableEq, Repr

/-- The reasons an instruction could be refused by the model. -/
inductive Refusal where
  /-- Raised by an arm of `exec` whose instruction has no meaning yet; no arm raises it now. Safe: the
  run stops where the engine goes on. -/
  | notModelled (mnemonic : String)
  deriving DecidableEq, Repr

/-- The state after reset (R130). `valid` is 0 as the spec says. The spec gives `h`, `pending` and
`totalLength` no value; DESIGN CHOICE: zero (log 1), unsafe. No byte of the buffer has a known value.
DESIGN CHOICE for the model's own fields: nothing offered, nothing answered, index 0 (log 4, 5). -/
def State.reset : State where
  h := Vector.replicate 12 0
  buf := []
  pending := 0
  totalLength := 0
  valid := false
  port := []
  responses := []
  freeCount := 0

end Sys2Proof.Machine
end

