-- ==== Sys2Proof/Machine/Flags.lean ====
section
/-! DEFINITION. The engine's one flag and what is derived from the counters (10_state.md rules R24,
R25), and the numbers of the status codes (30_encoding.md rule R48). Arithmetic sets no flag (R11). -/

namespace Sys2Proof.Machine

/-- The byte that reports a status (R48). -/
def statusCode : Status → Byte
  | .ok => 0x00
  | .illegalCmd => 0x01
  | .keyTooLong => 0x02
  | .badFrame => 0x03
  | .noContext => 0x04
  | .lenOverflow => 0x05

/-- The status a rejected frame reports (R50). -/
def rejectStatus : Reject → Status
  | .illegalCmd => .illegalCmd
  | .keyTooLong => .keyTooLong
  | .badFrame => .badFrame

/-- `primed := (totalLength >= 96)`, a predicate and not a register (R24). -/
def primed (s : State) : Bool := decide (96 ≤ s.totalLength.toNat)

/-- An UPDATE of `n` bytes would carry `totalLength` past 2^64 - 1, compared in unbounded integers
(R115). -/
def overflows (s : State) (n : Nat) : Bool := decide (2 ^ 64 - 1 < s.totalLength.toNat + n)

end Sys2Proof.Machine
end

