-- ==== Sys2Proof/Machine/Operands.lean ====
section
/-! DEFINITION. Operand and response assembly: the seeds of a key (30_encoding.md rule R47) and the
response frames (30_encoding.md rule R46). -/

namespace Sys2Proof.Machine

/-- The key zero-padded on the right to 16 bytes (R47). -/
def paddedKey (key : List Byte) : List Byte := key ++ List.replicate (16 - key.length) 0

/-- `seed1 = LE64(K[0..8))` (R47). -/
def seed1 (key : List Byte) : Word := le64 (slice (paddedKey key) 0 8)

/-- `seed2 = LE64(K[8..16))` (R47). -/
def seed2 (key : List Byte) : Word := le64 (slice (paddedKey key) 8 8)

/-- A response that carries a status alone (R46). -/
def statusResponse (st : Status) : List Byte := [statusCode st]

/-- A response that carries OK and a digest: 17 bytes (R46). -/
def digestResponse (d : Digest) : List Byte :=
  statusResponse .ok ++ bytesLE64 d.d0 ++ bytesLE64 d.d1

end Sys2Proof.Machine
end

