-- ==== Sys2Proof/Machine/Ops.lean ====
section
/-! DEFINITION. The named operations over the buffer, the registers and the port, and the shared
operations the commands are made of: answering, being refused (the engine's trap entry,
60_exceptions.md rules R110, R118; there is no return from one, R119), reset, BUFFER and FLUSH. -/

namespace Sys2Proof.Machine

open Sys2Proof.Config

/-- The byte listed at an offset, or none where no value is known. This is the one definition of what
an unlisted offset reads as. -/
def Memory.read : Memory → Nat → Option Byte
  | [], _ => none
  | (k, b) :: t, a => if a = k then some b else if a < k then none else Memory.read t a

/-- Write one byte, keeping the cells in order. -/
def Memory.write : Memory → Nat → Byte → Memory
  | [], a, b => [(a, b)]
  | (k, c) :: t, a, b =>
    if a < k then (a, b) :: (k, c) :: t
    else if a = k then (a, b) :: t
    else (k, c) :: Memory.write t a b

/-- `MemWrite`: the bytes go to `a`, `a + 1`, … in order (R13). -/
def Memory.writeBytes : Memory → Nat → List Byte → Memory
  | m, _, [] => m
  | m, a, b :: bs => Memory.writeBytes (Memory.write m a b) (a + 1) bs

/-- Keep the cells below offset `n`; the others hold no known value any more. -/
def Memory.keepBelow (m : Memory) (n : Nat) : Memory := m.filter fun c => decide (c.1 < n)

/-- Write the lanes. -/
def State.setLanes (s : State) (x : Lanes) : State := { s with h := x }

/-- Write the buffer. -/
def State.setBuf (s : State) (m : Memory) : State := { s with buf := m }

/-- Write `pending`, a 7-bit register (R23). -/
def State.setPending (s : State) (n : Nat) : State := { s with pending := BitVec.ofNat 7 n }

/-- Write `totalLength`, a 64-bit register (R24). -/
def State.setTotalLength (s : State) (n : Nat) : State :=
  { s with totalLength := BitVec.ofNat 64 n }

/-- Write the `valid` flag (R25). -/
def State.setValid (s : State) (b : Bool) : State := { s with valid := b }

/-- The events left at the port. -/
def State.setPort (s : State) (p : List PortEvent) : State := { s with port := p }

/-- Produce one response frame (R40). -/
def State.answer (s : State) (r : List Byte) : State := { s with responses := s.responses ++ [r] }

/-- Step to the next free values. -/
def State.freshen (s : State) : State := { s with freeCount := s.freeCount + 1 }

/-- What buffer byte `j` reads as: its value, or a FREE VALUE where none is known (R22, R29, U11).
No rule's result depends on such a byte in a state that a run reaches (log 3). The free value is indexed
by `freeCount` and `j` alone, so two instances may share it (DESIGN CHOICE, log 14). -/
def State.bufByte (s : State) (j : Nat) : Byte :=
  (s.buf.read j).getD (staleByte s.freeCount j)

/-- `buf[0..pending)`, the valid bytes (R22). -/
def State.validBytes (s : State) : List Byte := (List.range s.pending.toNat).map s.bufByte

/-- `buf[0..96)` as a block (R83 step 3). -/
def State.bufBlock (s : State) : Block := Vector.ofFn fun j => s.bufByte j.val

/-- TRAP ENTRY of this hardware: a refusal answers its status byte alone and changes no architectural
register (R110, R118). There is no trap return: the engine is then ready for the next command (R119). -/
def State.refuse (s : State) (st : Status) : State := s.answer (statusResponse st)

/-- The effect of reset (R130, R132): `valid` is 0; `h`, `pending` and `totalLength` hold FREE VALUES
("any bit pattern, possibly different after each reset") and no byte of the buffer has a known
value (log 2). DESIGN CHOICE (log 14), unsafe: the free values are indexed by `freeCount` alone, so two
instances with equal `freeCount` hold the same contents, which R124 and R130 leave open. -/
def State.applyReset (s : State) : State :=
  ((((s.setValid false).setLanes (Vector.ofFn fun i => resetLane s.freeCount i.val)).setBuf
    []).setPending (resetPending s.freeCount).toNat).setTotalLength
    (resetTotalLength s.freeCount).toNat |>.freshen

/-- The effect of INIT on the registers; `buf` is not written (R80). -/
def State.openContext (s : State) (s1 s2 : Word) : State :=
  (((s.setLanes (rawLanes s1 s2)).setPending 0).setTotalLength 0).setValid true

/-- BUFFER, the branch of UPDATE for `pending + L < 96` (R82). -/
def State.bufferData (s : State) (data : List Byte) : State :=
  ((s.setBuf (s.buf.writeBytes s.pending.toNat data)).setPending
    (s.pending.toNat + data.length)).setTotalLength (s.totalLength.toNat + data.length)

/-- Step 1 of FLUSH: PRIME at the first full block of a context, and never again (R63, R83). -/
def State.primeOnce (v : Variant) (s : State) : State :=
  if primed s then s else s.setLanes (prime v s.h[0] s.h[1])

/-- Steps 2 and 3 of FLUSH: top off the buffer to 96 bytes with the head of `data` and mix it (R83). -/
def State.topOff (v : Variant) (s : State) (data : List Byte) : State :=
  let full := s.setBuf (s.buf.writeBytes s.pending.toNat (data.take (96 - s.pending.toNat)))
  full.setLanes (blockmix v full.h full.bufBlock)

/-- Steps 4 to 6 of FLUSH, from offset `off` of `data` on: mix the further whole blocks, keep the tail
in the buffer, advance the counters (R83). The bytes after the tail are stale: no value of theirs is
known, whether or not whole blocks passed through the buffer (R29, U6). -/
def State.absorbRest (v : Variant) (s : State) (data : List Byte) (off : Nat) : State :=
  let n := (data.length - off) / 96
  let tail := data.drop (off + 96 * n)
  ((((s.setLanes (mixBlocks v s.h data off n)).setBuf
    ((s.buf.writeBytes 0 tail).keepBelow tail.length)).setPending tail.length).setTotalLength
    (s.totalLength.toNat + data.length)).freshen

/-- FLUSH, the branch of UPDATE for `pending + L >= 96` (R83). -/
def State.flushData (v : Variant) (s : State) (data : List Byte) : State :=
  ((s.primeOnce v).topOff v data).absorbRest v data (96 - s.pending.toNat)

/-- UPDATE's effect on the registers once its checks have passed (R81). -/
def State.absorb (v : Variant) (s : State) (data : List Byte) : State :=
  if s.pending.toNat + data.length < 96 then s.bufferData data else s.flushData v data

/-- The digest FINAL returns: short path below 96 bytes, else FINALBLOCK on a copy of the lanes (R85,
R86). It reads the state and changes nothing. -/
def State.finalDigest (v : Variant) (s : State) : Digest :=
  if primed s then finalMix v s.h s.validBytes else shortmix v s.validBytes s.h[0] s.h[1]

end Sys2Proof.Machine
end

