-- ==== Sys2Proof/Machine/OneShot.lean ====
section
/-! DEFINITION. The command ONESHOT (43_oneshot_and_laws.md rule R101). -/

namespace Sys2Proof.Machine

open Sys2Proof.Config

/-- ONESHOT (R101): the digest of a whole message. It reads and writes no architectural register and
needs no context. A key of more than 16 bytes is refused (R112). -/
def execOneshot (key message : List Byte) (s : State) : Host.Outcome State Fault Refusal :=
  if 16 < key.length then .next (s.refuse .keyTooLong)
  else .next (s.answer (digestResponse (digest bheA message (seed1 key) (seed2 key))))

end Sys2Proof.Machine
end

