-- ==== Sys2Proof/Machine/Stream.lean ====
section
/-! DEFINITION. The streaming commands INIT, UPDATE and FINAL (42_stream_commands.md). -/

namespace Sys2Proof.Machine

open Sys2Proof.Config

/-- INIT (R80). It needs no context. A key of more than 16 bytes is refused and no byte of it is
used (R112). -/
def execInit (key : List Byte) (s : State) : Host.Outcome State Fault Refusal :=
  if 16 < key.length then .next (s.refuse .keyTooLong)
  else .next ((s.openContext (seed1 key) (seed2 key)).answer (statusResponse .ok))

/-- UPDATE (R81): NO_CONTEXT before LEN_OVERFLOW (R116), both before any state is written (R110). -/
def execUpdate (data : List Byte) (s : State) : Host.Outcome State Fault Refusal :=
  if s.valid = false then .next (s.refuse .noContext)
  else if overflows s data.length then .next (s.refuse .lenOverflow)
  else .next ((s.absorb bheA data).answer (statusResponse .ok))

/-- FINAL (R85): the digest of all bytes supplied so far; no register changes (R87). -/
def execFinal (s : State) : Host.Outcome State Fault Refusal :=
  if s.valid = false then .next (s.refuse .noContext)
  else .next (s.answer (digestResponse (s.finalDigest bheA)))

end Sys2Proof.Machine
end

