-- ==== Sys2Proof/WellFormed.lean ====
section
/-! DEFINITION. Which abstract commands an encoding exists for (30_encoding.md rule R52): a key of at
most 16 bytes and a payload of fewer than 2^64 bytes. -/

namespace Sys2Proof

/-- KEYMAX: a key has at most 16 bytes (R10, R52). -/
def keyFits (key : List Byte) : Bool := decide (key.length ≤ 16)

/-- A payload's length fits the 64-bit LEN field (R16, R52). -/
def payloadFits (data : List Byte) : Bool := decide (data.length < 2 ^ 64)

/-- The well-formedness checks of R52, command by command. -/
def Instr.wellFormed : Instr → Bool
  | .init key => keyFits key
  | .update data => payloadFits data
  | .final => true
  | .oneshot key message => keyFits key && payloadFits message

/-- `Instr.wellFormed` as a proposition. -/
abbrev Instr.WellFormed (i : Instr) : Prop := i.wellFormed = true

end Sys2Proof
end

