-- ==== Sys2Proof/Decode.lean ====
section
/-! DEFINITION. The total frame decoder of 30_encoding.md rule R50, the encoder of rules R41 to R45,
the opcode map, the pseudo-commands of rule R53, and the layout of an opcode-table word as a frame. -/

namespace Sys2Proof

open Sys2Proof.Machine

/-- OPC, bits 7..0 of a command word (R41). -/
def opcField (cw : BitVec 32) : BitVec 8 := cw.extractLsb' 0 8

/-- KLEN, bits 12..8 of a command word (R41). -/
def klenField (cw : BitVec 32) : BitVec 5 := cw.extractLsb' 8 5

/-- RSV, bits 31..13 of a command word (R41). -/
def rsvField (cw : BitVec 32) : BitVec 19 := cw.extractLsb' 13 19

/-- The opcode map of 30_encoding.md section 5. -/
def opcodeTable : List OpcodeRow :=
  [ ⟨"INIT", 0xFFFFE0FF, 0x00000001⟩,
    ⟨"UPDATE", 0xFFFFFFFF, 0x00000002⟩,
    ⟨"FINAL", 0xFFFFFFFF, 0x00000003⟩,
    ⟨"ONESHOT", 0xFFFFE0FF, 0x00000004⟩ ]

/-- A command word matches a row of the opcode map. -/
def OpcodeRow.accepts (r : OpcodeRow) (cw : BitVec 32) : Bool := cw &&& r.mask == r.pattern

/-- Step 7 of R50 for INIT: frame length exactly `4 + KLEN`. -/
def decodeInit (k : Nat) (frame : List Byte) : Except Reject Instr :=
  if frame.length ≠ 4 + k then .error .badFrame
  else .ok (.init (slice frame 4 k))

/-- Step 7 of R50 for FINAL: frame length exactly 4. -/
def decodeFinal (frame : List Byte) : Except Reject Instr :=
  if frame.length ≠ 4 then .error .badFrame else .ok .final

/-- Step 7 of R50 for UPDATE. The length comparison is made in unbounded integers. -/
def decodeUpdate (frame : List Byte) : Except Reject Instr :=
  if frame.length < 12 then .error .badFrame
  else if frame.length ≠ 12 + (le64 (slice frame 4 8)).toNat then .error .badFrame
  else .ok (.update (frame.drop 12))

/-- Step 7 of R50 for ONESHOT. The length comparison is made in unbounded integers. -/
def decodeOneshot (k : Nat) (frame : List Byte) : Except Reject Instr :=
  if frame.length < 12 + k then .error .badFrame
  else if frame.length ≠ 12 + k + (le64 (slice frame (4 + k) 8)).toNat then .error .badFrame
  else .ok (.oneshot (slice frame 4 k) (frame.drop (12 + k)))

/-- Step 7 of R50: the operands, by opcode. -/
def decodeOperands (opc : BitVec 8) (k : Nat) (frame : List Byte) : Except Reject Instr :=
  if opc = 0x01 then decodeInit k frame
  else if opc = 0x03 then decodeFinal frame
  else if opc = 0x02 then decodeUpdate frame
  else decodeOneshot k frame

/-- Steps 3 to 7 of R50, on the command word `cw` of a frame of at least four bytes. -/
def decodeCommandWord (cw : BitVec 32) (frame : List Byte) : Except Reject Instr :=
  if rsvField cw ≠ 0 then .error .illegalCmd
  else if ¬ (opcField cw = 0x01 ∨ opcField cw = 0x02 ∨ opcField cw = 0x03 ∨ opcField cw = 0x04) then
    .error .illegalCmd
  else if (opcField cw = 0x02 ∨ opcField cw = 0x03) ∧ klenField cw ≠ 0 then .error .illegalCmd
  else if (opcField cw = 0x01 ∨ opcField cw = 0x04) ∧ 16 < (klenField cw).toNat then
    .error .keyTooLong
  else decodeOperands (opcField cw) (klenField cw).toNat frame

/-- The total decoder of R50: every byte string is one abstract command or one rejection, and no
state of the engine takes part (R51). -/
def decode (frame : List Byte) : Except Reject Instr :=
  if frame.length < 4 then .error .badFrame
  else decodeCommandWord (le32 (frame.take 4)) frame

/-- The four bytes of the command word with the given OPC and KLEN, and RSV zero (R41). -/
def commandWordBytes (opc k : Nat) : List Byte := leBytes 4 (opc + 256 * k)

/-- A LEN field: the byte count of a payload as eight little-endian bytes (R43, R45). -/
def lenBytes (data : List Byte) : List Byte := leBytes 8 data.length

/-- The frame of a well-formed command (R42 to R45). -/
def encode : Instr → List Byte
  | .init key => commandWordBytes 1 key.length ++ key
  | .update data => commandWordBytes 2 0 ++ lenBytes data ++ data
  | .final => commandWordBytes 3 0
  | .oneshot key message => commandWordBytes 4 key.length ++ key ++ lenBytes message ++ message

/-- The 16-byte key that carries a seed pair (R47). -/
def keyOfSeeds (s1 s2 : Word) : List Byte := bytesLE64 s1 ++ bytesLE64 s2

/-- The pseudo-command `Init(s1, s2)` (R53). -/
def initSeeds (s1 s2 : Word) : Instr := .init (keyOfSeeds s1 s2)

/-- The pseudo-command `OneShot(M, s1, s2)` (R53). -/
def oneshotSeeds (message : List Byte) (s1 s2 : Word) : Instr :=
  .oneshot (keyOfSeeds s1 s2) message

/-- The pseudo-command `streaming(M, [F1..Fn], s1, s2)` as its command sequence (R53). -/
def streaming (fragments : List (List Byte)) (s1 s2 : Word) : List Instr :=
  initSeeds s1 s2 :: (fragments.map Instr.update ++ [Instr.final])

/-- How long a frame must be for its fields, where every byte that `header` does not give is zero
(R42 to R45). -/
def impliedLength (header : List Byte) : Nat :=
  let g := header ++ List.replicate 43 0
  let cw := le32 (g.take 4)
  let k := (klenField cw).toNat
  if opcField cw = 0x01 then 4 + k
  else if opcField cw = 0x02 then 12 + leNat (slice g 4 8)
  else if opcField cw = 0x04 then 12 + k + leNat (slice g (4 + k) 8)
  else 4

/-- The frame of an opcode-table word: its `nbits` bits as little-endian bytes, the first at the
lowest address, and then zero operand bytes up to the length the fields imply. -/
def frameOfTableWord (nbits w : Nat) : List Byte :=
  let given := leBytes (nbits / 8) w
  given ++ List.replicate (impliedLength given - given.length) 0

/-- The instruction the decoder reads from an opcode-table word. -/
def decodeTableWord (nbits w : Nat) : Option Instr :=
  match decode (frameOfTableWord nbits w) with
  | .ok i => some i
  | .error _ => none

end Sys2Proof
end

