-- ==== Sys2Proof/Machine/Port.lean ====
section
/-! DEFINITION. The command port (30_encoding.md rule R40; 70_reset_and_hazards.md rules R132, R133):
taking the next event, and what a frame the decoder rejects does. -/

namespace Sys2Proof.Machine

/-- The state in which the oldest port event has been taken. -/
def State.takeEvent (s : State) : State := s.setPort s.port.tail

/-- A frame that no command decodes from is refused with the decoder's status (R50, R110). -/
def State.rejectFrame (s : State) (r : Reject) : State := s.refuse (rejectStatus r)

/-- The port with a frame placed before everything it holds. -/
def State.offerFirst (s : State) (frame : List Byte) : State := s.setPort (.command frame :: s.port)

end Sys2Proof.Machine
end

