-- ==== Sys2Proof/Machine/Step.lean ====
section
/-! DEFINITION. One step of an engine instance: the transaction of the oldest port event, to completion
(20_memory.md rule R39). -/

namespace Sys2Proof.Machine

/-- One step. An idle engine holds its state (60_exceptions.md rule R125); a frame is decoded and its
command executed, or it is refused (30_encoding.md rule R50); reset takes effect between commands or
in place of the command it cuts short, which then has no response (70_reset_and_hazards.md rule R132). -/
def step (s : State) : Host.Outcome State Fault Refusal :=
  match s.port with
  | [] => .next s
  | .command frame :: _ =>
    match decode frame with
    | .ok i => exec i s.takeEvent
    | .error r => .next (s.takeEvent.rejectFrame r)
  | .reset :: _ => .next s.takeEvent.applyReset
  | .resetDuring _ :: _ => .next s.takeEvent.applyReset

/-- The state with the frame of an opcode-table word offered first at the port. -/
def State.withFetchWord (s : State) (nbits w : Nat) : State :=
  s.offerFirst (frameOfTableWord nbits w)

end Sys2Proof.Machine
end

