-- ==== Sys2Proof/Machine/System.lean ====
section
/-! DEFINITION. Several engine instances: the product of independent machines (10_state.md rule R32,
60_exceptions.md rule R124). -/

namespace Sys2Proof.Machine

/-- Instance `k` of a system takes one step and the others hold their states; a number that names no
instance steps nothing. The order in which instances step is the caller's (R124: any interleaving).
Instances with equal `freeCount` share their free values (DESIGN CHOICE, log 14). -/
def systemStep (k : Nat) (sys : List State) : Host.Outcome (List State) Fault Refusal :=
  match sys[k]? with
  | none => .next sys
  | some s =>
    match step s with
    | .next t => .next (sys.set k t)
    | .fault f => .fault f
    | .refused r => .refused r

end Sys2Proof.Machine
end

