-- ==== Sys2Proof/Safety.lean ====
section
/-! DEFINITION. The terms the statements are written in: the invariant of the state, the stream a
context stands for (10_state.md rule R30), what the host is owed (42_stream_commands.md,
43_oneshot_and_laws.md), and when two engines cannot be told apart (10_state.md rule R29). -/

namespace Sys2Proof.Safety

open Sys2Proof.Machine Sys2Proof.Config

/-- The invariant of the machine state. With no context nothing is required of the registers (R130). -/
structure Inv (s : State) : Prop where
  /-- The buffer is in canonical form, offsets 0..95 (R34). -/
  bufForm : Memory.wf s.buf
  /-- `0 <= pending < 96` (R23). -/
  pendingBound : s.valid = true → s.pending.toNat < 96
  /-- `totalLength mod 96 = pending` (R30). -/
  counters : s.valid = true → s.totalLength.toNat % 96 = s.pending.toNat
  /-- Every valid byte of the buffer has been written (R22). -/
  validListed : s.valid = true → ∀ j < s.pending.toNat, (s.buf.read j).isSome = true
  /-- Below one block the lanes are in raw-seed form (R21). -/
  rawForm : s.valid = true → primed s = false → s.h = rawLanes s.h[0] s.h[1]

/-- What a context stands for: the seeds of the last successful INIT and the message supplied since,
"the concatenation, in order, of the payloads of every successful UPDATE since that INIT" (R30). -/
structure Stream where
  s1 : Word
  s2 : Word
  message : List Byte
  deriving DecidableEq, Repr

/-- The lanes of R30. -/
def Stream.lanes (v : Variant) (t : Stream) : Lanes :=
  if t.message.length < 96 then rawLanes t.s1 t.s2 else blockLanes v t.message t.s1 t.s2

/-- The representation invariant of R30: the state is this function of the seeds and the message. -/
structure Represents (v : Variant) (t : Stream) (s : State) : Prop where
  context : s.valid = true
  bounded : t.message.length < 2 ^ 64
  totalLength : s.totalLength.toNat = t.message.length
  pending : s.pending.toNat = t.message.length % 96
  bytes : ∀ j < s.pending.toNat, s.buf.read j = (messageTail t.message)[j]?
  lanes : s.h = t.lanes v

/-- The engine state tracks a stream, or the absence of one. -/
def Tracks (v : Variant) (g : Option Stream) (s : State) : Prop :=
  Memory.wf s.buf ∧
    match g with
    | none => s.valid = false
    | some t => Represents v t s

/-- How a command changes the stream. Only a successful INIT and a successful UPDATE do (R103). -/
def followInstr (g : Option Stream) : Instr → Option Stream
  | .init key => if 16 < key.length then g else some ⟨seed1 key, seed2 key, []⟩
  | .update data =>
    match g with
    | none => none
    | some t =>
      if 2 ^ 64 - 1 < t.message.length + data.length then some t
      else some ⟨t.s1, t.s2, t.message ++ data⟩
  | .final => g
  | .oneshot _ _ => g

/-- How a port event changes the stream; a rejected frame does not, reset ends it (R110, R132). -/
def followEvent (g : Option Stream) : PortEvent → Option Stream
  | .command frame =>
    match decode frame with
    | .ok i => followInstr g i
    | .error _ => g
  | .reset => none
  | .resetDuring _ => none

/-- The response a command is owed, from the stream alone: no register of the engine is mentioned
(R80, R81, R85, R101, R103, R114, R115). -/
def owedByInstr (v : Variant) (g : Option Stream) : Instr → List Byte
  | .init key => if 16 < key.length then statusResponse .keyTooLong else statusResponse .ok
  | .update data =>
    match g with
    | none => statusResponse .noContext
    | some t =>
      if 2 ^ 64 - 1 < t.message.length + data.length then statusResponse .lenOverflow
      else statusResponse .ok
  | .final =>
    match g with
    | none => statusResponse .noContext
    | some t => digestResponse (digest v t.message t.s1 t.s2)
  | .oneshot key message =>
    if 16 < key.length then statusResponse .keyTooLong
    else digestResponse (digest v message (seed1 key) (seed2 key))

/-- The responses a port event is owed: one for a frame, none for a reset (R40, R132). -/
def owedByEvent (v : Variant) (g : Option Stream) : PortEvent → List (List Byte)
  | .command frame =>
    match decode frame with
    | .ok i => [owedByInstr v g i]
    | .error r => [statusResponse (rejectStatus r)]
  | .reset => []
  | .resetDuring _ => []

/-- The stream after a sequence of port events. -/
def followEvents (g : Option Stream) : List PortEvent → Option Stream
  | [] => g
  | e :: es => followEvents (followEvent g e) es

/-- The responses a sequence of port events is owed, in order (R39, R138). -/
def owedByEvents (v : Variant) (g : Option Stream) : List PortEvent → List (List Byte)
  | [] => []
  | e :: es => owedByEvent v g e ++ owedByEvents v (followEvent g e) es

/-- Two engines that no host can tell apart: both without a context, or with contexts that agree on
everything but stale bytes (R25, R29). -/
structure Alike (s t : State) : Prop where
  context : s.valid = t.valid
  lanes : s.valid = true → s.h = t.h
  pending : s.valid = true → s.pending = t.pending
  totalLength : s.valid = true → s.totalLength = t.totalLength
  bytes : s.valid = true → s.validBytes = t.validBytes

/-- Every architectural register of `t` is that of `s` (R20, R110). -/
structure SameRegisters (s t : State) : Prop where
  lanes : t.h = s.h
  buf : t.buf = s.buf
  pending : t.pending = s.pending
  totalLength : t.totalLength = s.totalLength
  context : t.valid = s.valid

end Sys2Proof.Safety
end

