-- ==== Sys2Proof/Certificates/Slice0/Obligations.lean ====
section
/-! DEFINITION. The statements about the model, for the provers: encodings, the mixing operations, each
command's result and frame, refusals, reset, the invariant, and the laws of the spec. -/

open Sys2Proof Sys2Proof.Machine Sys2Proof.Config Sys2Proof.Safety

/-! ### Encoding -/

/-- 30_encoding.md R42 to R45, R50, R52: every well-formed command, with every key, payload and length
the encoding admits, decodes from its frame. -/
def Obligations.DecodeOfEncode : Prop :=
  ∀ i : Instr, i.WellFormed → decode (encode i) = .ok i

/-- 30_encoding.md R50: "decoded to exactly one abstract command"; a frame that decodes is the frame of
its command, byte for byte, so each command has one encoding and no bit of a frame is ignored. -/
def Obligations.EncodeOfDecode : Prop :=
  ∀ (frame : List Byte) (i : Instr), decode frame = .ok i → encode i = frame ∧ i.WellFormed

/-- 60_exceptions.md R111, in numbers read off the frame: the cause of ILLEGAL_CMD exactly, and the
response 01 with nothing changed. -/
def Obligations.IllegalCommandCause : Prop :=
  ∀ frame : List Byte,
    let cw := leNat (frame.take 4)
    (decode frame = .error .illegalCmd ↔
      4 ≤ frame.length ∧
        (cw / 2 ^ 13 ≠ 0 ∨ cw % 2 ^ 8 ∉ [1, 2, 3, 4] ∨
          (cw % 2 ^ 8 ∈ [2, 3] ∧ cw / 2 ^ 8 % 2 ^ 5 ≠ 0))) ∧
    (decode frame = .error .illegalCmd → ∀ (s : State) (rest : List PortEvent),
      s.port = .command frame :: rest →
        step s = .next { s with port := rest, responses := s.responses ++ [[0x01]] })

/-- 60_exceptions.md R112: KEY_TOO_LONG comes from the KLEN field alone, before the frame length is
examined; the response is 02 and nothing changes. -/
def Obligations.KeyTooLongCause : Prop :=
  ∀ frame : List Byte,
    let cw := leNat (frame.take 4)
    (decode frame = .error .keyTooLong ↔
      4 ≤ frame.length ∧ cw / 2 ^ 13 = 0 ∧ cw % 2 ^ 8 ∈ [1, 4] ∧ 16 < cw / 2 ^ 8 % 2 ^ 5) ∧
    (decode frame = .error .keyTooLong → ∀ (s : State) (rest : List PortEvent),
      s.port = .command frame :: rest →
        step s = .next { s with port := rest, responses := s.responses ++ [[0x02]] })

/-- 60_exceptions.md R113: the cause of BAD_FRAME exactly, lengths compared in unbounded integers; the
response is 03 and nothing changes. -/
def Obligations.BadFrameCause : Prop :=
  ∀ frame : List Byte,
    let cw := leNat (frame.take 4)
    let opc := cw % 2 ^ 8
    let klen := cw / 2 ^ 8 % 2 ^ 5
    let n := frame.length
    (decode frame = .error .badFrame ↔
      n < 4 ∨
        (cw / 2 ^ 13 = 0 ∧
          ((opc = 1 ∧ klen ≤ 16 ∧ n ≠ 4 + klen) ∨
           (opc = 3 ∧ klen = 0 ∧ n ≠ 4) ∨
           (opc = 2 ∧ klen = 0 ∧ (n < 12 ∨ n ≠ 12 + leNat (slice frame 4 8))) ∨
           (opc = 4 ∧ klen ≤ 16 ∧
             (n < 12 + klen ∨ n ≠ 12 + klen + leNat (slice frame (4 + klen) 8)))))) ∧
    (decode frame = .error .badFrame → ∀ (s : State) (rest : List PortEvent),
      s.port = .command frame :: rest →
        step s = .next { s with port := rest, responses := s.responses ++ [[0x03]] })

/-- 30_encoding.md section 5: no command word matches two rows of the opcode map, "a command word
matching no row is ILLEGAL_CMD", and a frame that decodes to a command matches that command's row. -/
def Obligations.OpcodeRowsDecide : Prop :=
  (∀ cw : BitVec 32, (opcodeTable.filter fun r => r.accepts cw).length ≤ 1) ∧
  (∀ frame : List Byte, 4 ≤ frame.length →
    (decode frame = .error .illegalCmd ↔
      ∀ r ∈ opcodeTable, r.accepts (le32 (frame.take 4)) = false)) ∧
  (∀ (frame : List Byte) (i : Instr), decode frame = .ok i →
    ∃ r ∈ opcodeTable, r.accepts (le32 (frame.take 4)) = true ∧
      r.mnemonic = match i with
        | .init _ => "INIT"
        | .update _ => "UPDATE"
        | .final => "FINAL"
        | .oneshot _ _ => "ONESHOT")

/-- Frames written out byte by byte from 30_encoding.md R41 to R45 (95_test_vectors.md F1, F3, F5, F7,
F8) decode to the commands they stand for. A sanity statement. -/
def Obligations.WrittenFramesDecode : Prop :=
  decode [0x01, 0x10, 0, 0, 0x01, 0, 0, 0, 0, 0, 0, 0, 0x02, 0, 0, 0, 0, 0, 0, 0] =
    .ok (initSeeds 1 2) ∧
  decode [0x01, 0x02, 0, 0, 0x01, 0x02] = .ok (.init [0x01, 0x02]) ∧
  decode [0x02, 0, 0, 0, 0x03, 0, 0, 0, 0, 0, 0, 0, 0x61, 0x62, 0x63] =
    .ok (.update [0x61, 0x62, 0x63]) ∧
  decode [0x03, 0, 0, 0] = .ok .final ∧
  decode [0x04, 0x10, 0, 0, 0x01, 0, 0, 0, 0, 0, 0, 0, 0x02, 0, 0, 0, 0, 0, 0, 0,
    0x03, 0, 0, 0, 0, 0, 0, 0, 0x61, 0x62, 0x63] = .ok (oneshotSeeds [0x61, 0x62, 0x63] 1 2)

/-- 30_encoding.md R47: a 16-byte key carries its seed pair; a shorter key gives the seeds of the key
followed by zero bytes; each seed is the little-endian value of its half of the key. -/
def Obligations.SeedsOfKeys : Prop :=
  (∀ s1 s2 : Word, seed1 (keyOfSeeds s1 s2) = s1 ∧ seed2 (keyOfSeeds s1 s2) = s2) ∧
  ∀ key : List Byte, key.length ≤ 16 →
    (seed1 key).toNat = leNat (key.take 8) ∧ (seed2 key).toNat = leNat (key.drop 8) ∧
    ∀ n, key.length + n ≤ 16 →
      seed1 (key ++ List.replicate n 0) = seed1 key ∧
      seed2 (key ++ List.replicate n 0) = seed2 key

/-- A table word placed first at the port runs as the next step (the model's own device, log 5). -/
def Obligations.FetchWordRuns : Prop :=
  ∀ (s : State) (nbits w : Nat) (i : Instr), decodeTableWord nbits w = some i →
    step (s.withFetchWord nbits w) = exec i s

/-! ### Words and mixing operations -/

/-- 20_memory.md R33: byte `k` of an 8-byte string weighs 2^(8k); the serialisation of a word is its
inverse, both ways; and a block's lane is the value of its own eight bytes. -/
def Obligations.LittleEndianWords : Prop :=
  (∀ s : List Byte, s.length = 8 →
    (le64 s).toNat = ∑ k ∈ Finset.range 8, (s.getD k 0).toNat * 2 ^ (8 * k) ∧
    bytesLE64 (le64 s) = s) ∧
  (∀ w : Word, le64 (bytesLE64 w) = w) ∧
  ∀ (blk : Block) (i : Nat), i < 12 →
    (blockLane blk i).toNat =
      ∑ k ∈ Finset.range 8, (blk.toList.getD (8 * i + k) 0).toNat * 2 ^ (8 * k)

/-- 00_scope.md R12: left rotation by its formula and bit by bit, its inverse, the zero count, and the
worked values. -/
def Obligations.RotateMovesEachBit : Prop :=
  (∀ (x : Word) (r : Nat), r ≤ 63 →
    (1 ≤ r → rotl64 x r = (x <<< r) ||| (x >>> (64 - r))) ∧
    (∀ k < 64, (rotl64 x r).getLsbD ((k + r) % 64) = x.getLsbD k) ∧
    rotl64 x 0 = x ∧ rotr64 x r = rotl64 x ((64 - r) % 64) ∧ rotr64 (rotl64 x r) r = x ∧ rotl64 (rotr64 x r) r = x) ∧
  rotl64 0x8000000000000001 1 = 0x0000000000000003 ∧ rotl64 1 63 = 0x8000000000000000

/-- 40_blockmixer.md R61 with R5 and R6: what STEP(i) of BHE-A leaves in lanes `A = i`, `B = i + 1`,
`C = i + 2` (indices modulo 12), and that it leaves the nine other lanes alone. -/
def Obligations.StepWritesThreeLanes : Prop :=
  ∀ (i j : Fin 12) (d : Word) (x : Lanes),
    let y := mixStep bheA i d x
    let r := [13, 29, 41, 7, 53, 19, 37, 59, 23, 47, 31, 11].getD i.val 0
    i + 1 ≠ i ∧ i + 2 ≠ i ∧ i + 1 ≠ i + 2 ∧
      y[i] = x[i] + d ∧ y[i + 1] = rotl64 x[i + 1] r ^^^ y[i] ∧ y[i + 2] = x[i + 2] + y[i + 1] ∧
      (j ≠ i → j ≠ i + 1 → j ≠ i + 2 → y[j] = x[j])

/-- 40_blockmixer.md R65: BLOCKMIX of BHE-A is the table of the twelve steps, row by row. A name written
again stands for the lane's newest value. -/
def Obligations.BlockmixFollowsTheTable : Prop :=
  ∀ (x : Lanes) (blk : Block),
    let d := blockLane blk
    let x0 := x[0] + d 0; let x1 := rotl64 x[1] 13; let x1 := x1 ^^^ x0; let x2 := x[2] + x1
    let x1 := x1 + d 1; let x2 := rotl64 x2 29; let x2 := x2 ^^^ x1; let x3 := x[3] + x2
    let x2 := x2 + d 2; let x3 := rotl64 x3 41; let x3 := x3 ^^^ x2; let x4 := x[4] + x3
    let x3 := x3 + d 3; let x4 := rotl64 x4 7; let x4 := x4 ^^^ x3; let x5 := x[5] + x4
    let x4 := x4 + d 4; let x5 := rotl64 x5 53; let x5 := x5 ^^^ x4; let x6 := x[6] + x5
    let x5 := x5 + d 5; let x6 := rotl64 x6 19; let x6 := x6 ^^^ x5; let x7 := x[7] + x6
    let x6 := x6 + d 6; let x7 := rotl64 x7 37; let x7 := x7 ^^^ x6; let x8 := x[8] + x7
    let x7 := x7 + d 7; let x8 := rotl64 x8 59; let x8 := x8 ^^^ x7; let x9 := x[9] + x8
    let x8 := x8 + d 8; let x9 := rotl64 x9 23; let x9 := x9 ^^^ x8; let x10 := x[10] + x9
    let x9 := x9 + d 9; let x10 := rotl64 x10 47; let x10 := x10 ^^^ x9; let x11 := x[11] + x10
    let x10 := x10 + d 10; let x11 := rotl64 x11 31; let x11 := x11 ^^^ x10; let x0 := x0 + x11
    let x11 := x11 + d 11; let x0 := rotl64 x0 11; let x0 := x0 ^^^ x11; let x1 := x1 + x0
    blockmix bheA x blk = #v[x0, x1, x2, x3, x4, x5, x6, x7, x8, x9, x10, x11]

/-- 40_blockmixer.md R62: for a fixed block, BLOCKMIX is a bijection of the lane states, with the
backwards steps as its inverse, for any rotation counts and any wiring of three distinct lanes. What a
rotation by a count above 63 does, which no variant of the spec has, is the model's choice (log 12). -/
def Obligations.BlockmixReversible : Prop :=
  ∀ v : Variant, v.DistinctWiring → ∀ blk : Block,
    (∀ x, unblockmix v (blockmix v x blk) blk = x) ∧
    (∀ x, blockmix v (unblockmix v x blk) blk = x) ∧
    Function.Bijective fun x => blockmix v x blk

/-- 40_blockmixer.md R63: PRIME lane by lane, and distinct seed pairs give distinct primed states when
one multiplier is odd. -/
def Obligations.PrimeSpreadsSeeds : Prop :=
  ∀ (v : Variant) (s1 s2 : Word),
    (∀ g : Fin 4,
      (prime v s1 s2).toList[3 * g.val]? = some (s1 * v.kg[g]) ∧
      (prime v s1 s2).toList[3 * g.val + 1]? = some (s2 * v.kg[g]) ∧
      (prime v s1 s2).toList[3 * g.val + 2]? = some v.kg[g]) ∧
    ∀ (g : Fin 4) (t1 t2 : Word), v.kg[g].toNat % 2 = 1 →
      prime v s1 s2 = prime v t1 t2 → s1 = t1 ∧ s2 = t2

/-- 41_shortpath.md R70: for fixed words the map of the accumulators is a bijection, when both
multipliers are odd; they are in BHE-A. What a rotation by a count above 63 does, which no variant of
the spec has, is the model's choice (log 12). -/
def Obligations.ChunkmixReversible : Prop :=
  (∀ v : Variant, v.ka.toNat % 2 = 1 → v.kb.toNat % 2 = 1 → ∀ w0 w1 : Word,
    Function.Bijective fun acc => chunkmix v acc w0 w1) ∧
  bheA.ka.toNat % 2 = 1 ∧ bheA.kb.toNat % 2 = 1

/-- 41_shortpath.md R71: every byte of the two tail words. -/
def Obligations.TailwordBytes : Prop :=
  ∀ (tail : List Byte) (n j : Nat), tail.length ≤ 15 → n ≤ 95 → n % 16 = tail.length → j < 8 →
    ((tailwords tail n).1 >>> (8 * j)).setWidth 8 = tail.getD j 0 ∧
    ((tailwords tail n).2 >>> (8 * j)).setWidth 8 =
      if j = 7 then BitVec.ofNat 8 n else tail.getD (8 + j) 0

/-- 41_shortpath.md R74: SHORTMIX is the chunks in increasing order, then the tail words as one more
chunk, always, then SHORTEND; the accumulators are the digest. -/
def Obligations.ShortmixRunsByChunks : Prop :=
  ∀ (v : Variant) (msg : List Byte) (s1 s2 : Word), msg.length < 96 →
    let n := msg.length
    let q := n / 16
    let chunk := fun acc c =>
      chunkmix v acc (le64 (slice msg (16 * c) 8)) (le64 (slice msg (16 * c + 8) 8))
    let acc := (List.range q).foldl chunk (s1, s2)
    let t := tailwords (slice msg (16 * q) (n - 16 * q)) n
    let e := shortend v (chunkmix v acc t.1 t.2)
    q ≤ 5 ∧ shortmix v msg s1 s2 = ⟨e.1, e.2⟩

/-- 43_oneshot_and_laws.md R100: DIGEST by its two cases, over the blocks of the message in increasing
order and a final block given by its bytes. -/
def Obligations.DigestRunsByBlocks : Prop :=
  ∀ (v : Variant) (msg : List Byte) (s1 s2 : Word),
    let n := msg.length
    let q := n / 96
    let p := n % 96
    (n < 96 → digest v msg s1 s2 = shortmix v msg s1 s2) ∧
    (96 ≤ n → ∀ (blk : Nat → Block) (fb : Block),
      (∀ k < q, (blk k).toList = slice msg (96 * k) 96) →
      fb.toList = slice msg (96 * q) p ++ List.replicate (95 - p) 0 ++ [BitVec.ofNat 8 p] →
        let x := (List.range q).foldl (fun x k => blockmix v x (blk k)) (prime v s1 s2)
        let y := blockmix v (blockmix v (blockmix v (blockmix v x fb) fb) fb) fb
        digest v msg s1 s2 = ⟨y[0], y[11]⟩)

/-- 42_stream_commands.md R86 steps 2 and 3: the final block byte for byte, so that tails of different
content or length give different blocks. -/
def Obligations.FinalBlockEmbedsTail : Prop :=
  ∀ t : List Byte, t.length ≤ 95 →
    (finalBlock t).toList = t ++ List.replicate (95 - t.length) 0 ++ [BitVec.ofNat 8 t.length] ∧
    ∀ u : List Byte, u.length ≤ 95 → finalBlock t = finalBlock u → t = u

/-- Digests of 95_test_vectors.md S8, S10, G1 (n = 96) and P1. A sanity statement. -/
def Obligations.DigestVectors : Prop :=
  digest bheA [] 1 2 = ⟨0xD977C7618E117EAB, 0xA655F07894893322⟩ ∧
  digest bheA [0x61, 0x62, 0x63] 1 2 = ⟨0xC9D18A51D959DABE, 0x1888B6A6FF4F88F4⟩ ∧
  digest bheA ((List.range 96).map fun i => BitVec.ofNat 8 (37 * i + 11)) 1 2 =
    ⟨0x5F0C4C914178F35F, 0x4801FA0E908668CE⟩

/-! ### What each command does -/

/-- 42_stream_commands.md R80: INIT's whole effect, from any state; the buffer is not written. -/
def Obligations.InitOpensContext : Prop :=
  ∀ (key : List Byte) (s : State), key.length ≤ 16 →
    exec (.init key) s = .next { s with
      h := #v[seed1 key, seed2 key, 0, 0, 0, 0, 0, 0, 0, 0, 0, 0]
      pending := 0
      totalLength := 0
      valid := true
      responses := s.responses ++ [[0x00]] }

/-- 42_stream_commands.md R80: nothing of an old context survives INIT; from any two states it gives
engines that no host can tell apart. -/
def Obligations.InitForgetsTheOldContext : Prop :=
  ∀ (key : List Byte) (s t : State), key.length ≤ 16 →
    ∃ s' t', exec (.init key) s = .next s' ∧ exec (.init key) t = .next t' ∧ Alike s' t'

/-- 42_stream_commands.md R82: UPDATE with `pending + L < 96`. The written bytes start at `pending`;
every other byte, the lanes and the flag are as before. -/
def Obligations.UpdateBuffers : Prop :=
  ∀ (data : List Byte) (s : State), s.valid = true →
    s.totalLength.toNat + data.length ≤ 2 ^ 64 - 1 → s.pending.toNat + data.length < 96 →
    ∃ t, exec (.update data) s = .next t ∧
      t.pending.toNat = s.pending.toNat + data.length ∧
      t.totalLength.toNat = s.totalLength.toNat + data.length ∧
      t.h = s.h ∧ t.valid = s.valid ∧ t.port = s.port ∧ t.freeCount = s.freeCount ∧
      t.responses = s.responses ++ [[0x00]] ∧
      ∀ a, t.buf.read a =
        if s.pending.toNat ≤ a ∧ a < s.pending.toNat + data.length then data[a - s.pending.toNat]?
        else s.buf.read a

/-- 42_stream_commands.md R83: UPDATE with `pending + L >= 96`, over the valid bytes followed by the
payload: PRIME exactly when `totalLength < 96` before, one BLOCKMIX for each whole block in order,
the remainder in the buffer. The bytes after the remainder are stale and nothing is said of them. -/
def Obligations.UpdateFlushes : Prop :=
  ∀ (data : List Byte) (s : State), s.valid = true →
    s.totalLength.toNat + data.length ≤ 2 ^ 64 - 1 →
    s.pending.toNat < 96 → 96 ≤ s.pending.toNat + data.length →
    ∃ t, exec (.update data) s = .next t ∧
      t.pending.toNat = (s.pending.toNat + data.length) % 96 ∧
      t.totalLength.toNat = s.totalLength.toNat + data.length ∧
      t.h = mixBlocks bheA
        (if s.totalLength.toNat < 96 then prime bheA s.h[0] s.h[1] else s.h)
        (s.validBytes ++ data) 0 ((s.pending.toNat + data.length) / 96) ∧
      (∀ a < t.pending.toNat, t.buf.read a = (messageTail (s.validBytes ++ data))[a]?) ∧
      t.valid = s.valid ∧ t.port = s.port ∧ t.responses = s.responses ++ [[0x00]]

/-- 42_stream_commands.md R84: an empty UPDATE changes nothing and still needs a context. -/
def Obligations.EmptyUpdateIsNoOp : Prop :=
  ∀ s : State,
    (s.valid = true → s.pending.toNat < 96 →
      exec (.update []) s = .next { s with responses := s.responses ++ [[0x00]] }) ∧
    (s.valid = false →
      exec (.update []) s = .next { s with responses := s.responses ++ [[0x04]] })

/-- 42_stream_commands.md R85, the branch below one block: the short path over the valid bytes and the
raw seeds in lanes 0 and 1; nothing but the response changes. -/
def Obligations.FinalTakesShortPath : Prop :=
  ∀ s : State, s.valid = true → s.totalLength.toNat < 96 →
    let d := shortmix bheA s.validBytes s.h[0] s.h[1]
    exec .final s = .next { s with
      responses := s.responses ++ [0x00 :: (bytesLE64 d.d0 ++ bytesLE64 d.d1)] }

/-- 42_stream_commands.md R86: the block path mixes the same padded block four times into a copy and
answers lanes 0 and 11 of the copy; nothing but the response changes. -/
def Obligations.FinalMixesFourTimes : Prop :=
  ∀ (s : State) (fb : Block), s.valid = true → 96 ≤ s.totalLength.toNat → s.pending.toNat < 96 →
    fb.toList = s.validBytes ++ List.replicate (95 - s.pending.toNat) 0 ++
      [BitVec.ofNat 8 s.pending.toNat] →
    let mix := fun x : Lanes => blockmix bheA x fb
    let y : Lanes := mix (mix (mix (mix s.h)))
    exec .final s = .next { s with
      responses := s.responses ++ [(0x00 : Byte) :: (bytesLE64 y[0] ++ bytesLE64 y[11])] }

/-- 42_stream_commands.md R87: FINAL changes no register; repeated, it answers the same digest; an UPDATE
after it leaves the registers it would have left without it, and a further FINAL then answers the
same digest as if the first had not been issued. -/
def Obligations.FinalIsNonDestructive : Prop :=
  ∀ s : State, s.valid = true →
    ∃ (d : Digest) (t u : State), exec .final s = .next t ∧ exec .final t = .next u ∧
      SameRegisters s t ∧ t.port = s.port ∧ t.freeCount = s.freeCount ∧
      t.responses = s.responses ++ [digestResponse d] ∧
      u.responses = t.responses ++ [digestResponse d] ∧
      ∀ data, ∃ (a b a' b' : State) (r : List Byte),
        exec (.update data) s = .next a ∧ exec (.update data) t = .next b ∧ SameRegisters a b ∧
        exec .final a = .next a' ∧ exec .final b = .next b' ∧
        a'.responses = a.responses ++ [r] ∧ b'.responses = b.responses ++ [r]

/-- 42_stream_commands.md R88: FINAL immediately after INIT takes the short path on the empty message;
its value for `Init(1, 2)`. -/
def Obligations.FinalAfterInit : Prop :=
  (∀ (key : List Byte) (s : State), key.length ≤ 16 →
    ∃ t u, exec (.init key) s = .next t ∧ exec .final t = .next u ∧
      u.responses =
        s.responses ++ [[0x00]] ++ [digestResponse (shortmix bheA [] (seed1 key) (seed2 key))]) ∧
  shortmix bheA [] 1 2 = ⟨0xD977C7618E117EAB, 0xA655F07894893322⟩

/-- 43_oneshot_and_laws.md R101: ONESHOT answers OK and the digest of its operands, needs no context
and changes no register. -/
def Obligations.OneshotAnswersDigest : Prop :=
  ∀ (key message : List Byte) (s : State), key.length ≤ 16 →
    let d := digest bheA message (seed1 key) (seed2 key)
    exec (.oneshot key message) s = .next { s with
      responses := s.responses ++ [0x00 :: (bytesLE64 d.d0 ++ bytesLE64 d.d1)] }

/-- THE MODEL'S CHOICE (log 8) at the level of abstract commands, where 60_exceptions.md R112 speaks of
frames: a key of more than 16 bytes is refused, never truncated, and nothing changes. -/
def Obligations.LongKeyIsRefused : Prop :=
  ∀ (key message : List Byte) (s : State), 16 < key.length →
    exec (.init key) s = .next { s with responses := s.responses ++ [[0x02]] } ∧
    exec (.oneshot key message) s = .next { s with responses := s.responses ++ [[0x02]] }

/-- 60_exceptions.md R114: without a context UPDATE and FINAL answer 04 and change nothing; INIT and
ONESHOT never answer 04. -/
def Obligations.NoContextRefusals : Prop :=
  (∀ (s : State) (data : List Byte), s.valid = false →
    exec .final s = .next { s with responses := s.responses ++ [[0x04]] } ∧
    exec (.update data) s = .next { s with responses := s.responses ++ [[0x04]] }) ∧
  ∀ (s t : State) (key message : List Byte),
    (exec (.init key) s = .next t ∨ exec (.oneshot key message) s = .next t) →
      t.responses ≠ s.responses ++ [[0x04]]

/-- 60_exceptions.md R115: an UPDATE past 2^64 - 1 is refused whole with 05 and FINAL then answers what
it would have answered before; every other UPDATE is accepted, one that reaches exactly 2^64 - 1
included. -/
def Obligations.LengthOverflowIsRefused : Prop :=
  ∀ (s : State) (data : List Byte), s.valid = true →
    let n := s.totalLength.toNat + data.length
    (2 ^ 64 - 1 < n → ∃ t, exec (.update data) s = .next t ∧
      t = { s with responses := s.responses ++ [[0x05]] } ∧
      ∃ (d : Digest) (a b : State), exec .final s = .next a ∧ exec .final t = .next b ∧
        a.responses = s.responses ++ [digestResponse d] ∧
        b.responses = t.responses ++ [digestResponse d]) ∧
    (n ≤ 2 ^ 64 - 1 → ∃ t, exec (.update data) s = .next t ∧ t.totalLength.toNat = n ∧
      t.valid = true ∧ t.responses = s.responses ++ [[0x00]])

/-! ### Steps -/

/-- A step runs the decoded command (20_memory.md R39, 30_encoding.md R40): the frame is taken from the
port and nothing else is added around the command's meaning. -/
def Obligations.StepRunsDecodedCommand : Prop :=
  ∀ (s : State) (frame : List Byte) (rest : List PortEvent) (i : Instr),
    s.port = .command frame :: rest → decode frame = .ok i →
      step s = exec i { s with port := rest }

/-- 30_encoding.md R50: a frame that decodes to no command is answered by its status alone. -/
def Obligations.StepAnswersRejection : Prop :=
  ∀ (s : State) (frame : List Byte) (rest : List PortEvent) (r : Reject),
    s.port = .command frame :: rest → decode frame = .error r →
      step s = .next { s with
        port := rest
        responses := s.responses ++
          [[match r with | .illegalCmd => 0x01 | .keyTooLong => 0x02 | .badFrame => 0x03]] }

/-- 60_exceptions.md R110: a command either completes, its response beginning with 00, or is refused,
with a one-byte response and no architectural register changed; one response to each frame. -/
def Obligations.RefusalsChangeNothing : Prop :=
  ∀ (s : State) (frame : List Byte) (rest : List PortEvent), s.port = .command frame :: rest →
    ∃ t r, step s = .next t ∧ t.port = rest ∧ t.responses = s.responses ++ [r] ∧
      (r.head? = some 0x00 ∨ (∃ c : Byte, c ≠ 0x00 ∧ r = [c]) ∧ SameRegisters s t)

/-- 30_encoding.md R46: the form of every response, by command. -/
def Obligations.ResponseForms : Prop :=
  ∀ (s : State) (frame : List Byte) (rest : List PortEvent), s.port = .command frame :: rest →
    ∃ t r, step s = .next t ∧ t.responses = s.responses ++ [r] ∧
      ((∃ c : Byte, c ∈ [0x01, 0x02, 0x03, 0x04, 0x05] ∧ r = [c]) ∨
       ((∃ key, decode frame = .ok (.init key)) ∨ (∃ data, decode frame = .ok (.update data))) ∧
         r = [0x00] ∨
       (decode frame = .ok .final ∨ (∃ key message, decode frame = .ok (.oneshot key message))) ∧
         ∃ d : Digest, r = 0x00 :: (bytesLE64 d.d0 ++ bytesLE64 d.d1))

/-- 60_exceptions.md R116, its four examples: the earlier cause wins. -/
def Obligations.EarlierCauseWins : Prop :=
  ∀ (s : State) (rest : List PortEvent),
    (s.port = .command [0x02, 0x01, 0, 0, 0x05] :: rest →
      step s = .next { s with port := rest, responses := s.responses ++ [[0x01]] }) ∧
    (s.port = .command [0x01, 0x11, 0, 0] :: rest →
      step s = .next { s with port := rest, responses := s.responses ++ [[0x02]] }) ∧
    (s.port = .command [0x02, 0, 0, 0, 0x01, 0] :: rest → s.valid = false →
      step s = .next { s with port := rest, responses := s.responses ++ [[0x03]] }) ∧
    (∀ data : List Byte, data.length < 2 ^ 64 →
      2 ^ 64 - 1 < s.totalLength.toNat + data.length →
      s.port = .command (encode (.update data)) :: rest → s.valid = false →
        step s = .next { s with port := rest, responses := s.responses ++ [[0x04]] })

/-- 60_exceptions.md R121: a well-formed frame, with a context where one is needed and fewer than 2^64
bytes supplied, completes with OK. -/
def Obligations.TotalInsideTheContract : Prop :=
  ∀ (s : State) (frame : List Byte) (rest : List PortEvent) (i : Instr),
    s.port = .command frame :: rest → decode frame = .ok i →
    (s.valid = true ∨ (∃ key, i = .init key) ∨ ∃ key message, i = .oneshot key message) →
    (∀ data, i = .update data → s.totalLength.toNat + data.length < 2 ^ 64) →
      ∃ t r, step s = .next t ∧ t.responses = s.responses ++ [0x00 :: r]

/-- 43_oneshot_and_laws.md R57, 30_encoding.md R50: every command terminates and every byte string gets
a response, so a step always answers a next state. -/
def Obligations.StepAlwaysAnswers : Prop :=
  ∀ s : State, ∃ t, step s = .next t

/-- 60_exceptions.md R125: "an idle engine simply holds its state until the next command or reset". -/
def Obligations.IdleHoldsState : Prop :=
  ∀ s : State, s.port = [] → step s = .next s

/-- 70_reset_and_hazards.md R132 with R130: reset, between commands or in place of a command, ends the
context and gives no response. THE MODEL'S CHOICE (log 7), on which R132 is silent: the clause
`t.port = rest`, that the later events held at the port stay there. -/
def Obligations.ResetEndsContext : Prop :=
  ∀ (s : State) (rest : List PortEvent),
    (s.port = .reset :: rest ∨ ∃ frame, s.port = .resetDuring frame :: rest) →
      ∃ t, step s = .next t ∧ t.valid = false ∧ t.responses = s.responses ∧ t.port = rest ∧
        Memory.wf t.buf

/-- 10_state.md R25: only reset clears `valid` and only a successful INIT sets it. -/
def Obligations.OnlyInitAndResetMoveValid : Prop :=
  ∀ s t : State, step s = .next t → t.valid ≠ s.valid →
    (t.valid = false ∧ ∃ e rest, s.port = e :: rest ∧ (e = .reset ∨ ∃ f, e = .resetDuring f)) ∨
    (t.valid = true ∧ ∃ frame rest key, s.port = .command frame :: rest ∧
      decode frame = .ok (.init key) ∧ key.length ≤ 16)

/-! ### Invariants and laws -/

/-- 70_reset_and_hazards.md R130: after reset no context exists; the invariant holds. What the other
registers hold there is the model's choice (log 1) and nothing is said of it. -/
def Obligations.ResetMeetsInvariant : Prop :=
  State.reset.valid = false ∧ Inv State.reset ∧ Tracks bheA none State.reset

/-- 10_state.md R22, R23, R30: every step keeps the invariant, from every state that has it. -/
def Obligations.StepKeepsInvariant : Prop :=
  ∀ s t : State, Inv s → step s = .next t → Inv t

/-- 10_state.md R30, 43_oneshot_and_laws.md R103: from any state that tracks a stream (or none), every
port event leaves a state that tracks the stream as the event changes it, and is answered as the
stream alone determines: FINAL with DIGEST of the last INIT's seeds and the bytes supplied since. A reset
event ends the stream and is not answered (70_reset_and_hazards.md R132). THE MODEL'S CHOICE (log 7): for
a reset event, the clause `t.port = rest`, that the later events held at the port stay there. -/
def Obligations.EngineTracksStream : Prop :=
  ∀ (g : Option Stream) (s : State) (e : PortEvent) (rest : List PortEvent),
    Tracks bheA g s → s.port = e :: rest →
      ∃ t, step s = .next t ∧ t.port = rest ∧ Tracks bheA (followEvent g e) t ∧
        t.responses = s.responses ++ owedByEvent bheA g e

/-- 70_reset_and_hazards.md R138, 20_memory.md R39: a run from reset over any sequence of port events
yields exactly the responses its streams are owed, in order. THE MODEL'S CHOICE (log 7): R138 does not
speak of a run cut short by reset, and over a sequence that holds a reset the statement rests on the
later events staying at the port. -/
def Obligations.RunYieldsOwedResponses : Prop :=
  ∀ events : List PortEvent,
    ∃ t, Host.Core.run Sys2Proof.core events.length { State.reset with port := events } = .next t ∧
      t.port = [] ∧ t.responses = owedByEvents bheA none events ∧
      Tracks bheA (followEvents none events) t

/-- 43_oneshot_and_laws.md R102 for every variant: any fragmentation of a message gives its DIGEST. -/
def Obligations.StreamingEquivalenceEveryVariant : Prop :=
  ∀ (v : Variant) (s : State) (s1 s2 : Word) (fragments : List (List Byte)),
    fragments.flatten.length < 2 ^ 64 →
      (fragments.foldl (State.absorb v) (s.openContext s1 s2)).finalDigest v =
        digest v fragments.flatten s1 s2

/-- 43_oneshot_and_laws.md R102 at the port: `Init; Update(F1); …; Update(Fn); Final` and then ONESHOT
of the whole message, from any state, answer the same digest, that of DIGEST. -/
def Obligations.StreamingEquivalenceAtThePort : Prop :=
  ∀ (s : State) (s1 s2 : Word) (fragments : List (List Byte)),
    let m := fragments.flatten
    m.length < 2 ^ 64 →
    s.port = (streaming fragments s1 s2 ++ [oneshotSeeds m s1 s2]).map
      (fun i => PortEvent.command (encode i)) →
      ∃ t, Host.Core.run Sys2Proof.core (fragments.length + 3) s = .next t ∧
        t.responses = s.responses ++ List.replicate (fragments.length + 1) [0x00] ++
          [digestResponse (digest bheA m s1 s2), digestResponse (digest bheA m s1 s2)]

/-- 42_stream_commands.md R81: "UPDATE(X); UPDATE(Y) leaves the same architectural state" as the
UPDATE of both, in every variant, from every state of the invariant. -/
def Obligations.SplittingDoesNotMatter : Prop :=
  ∀ (v : Variant) (s : State) (x y : List Byte), Inv s → s.valid = true →
    s.totalLength.toNat + x.length + y.length ≤ 2 ^ 64 - 1 →
      Alike ((s.absorb v x).absorb v y) (s.absorb v (x ++ y))

/-- 10_state.md R29, 43_oneshot_and_laws.md R104: the response to any event, and whatever can be seen
later, is a function of the flag, the lanes, the counters and the valid bytes alone: two engines that
agree on those answer alike and stay alike. No stale byte and no free value takes part. -/
def Obligations.StaleBytesAreUnobservable : Prop :=
  ∀ s t : State, Alike s t → s.port = t.port →
    ∃ s' t' new, step s = .next s' ∧ step t = .next t' ∧ Alike s' t' ∧ s'.port = t'.port ∧
      s'.responses = s.responses ++ new ∧ t'.responses = t.responses ++ new

/-- 43_oneshot_and_laws.md R107, for every seed pair: ONESHOT of the empty message answers what INIT and
FINAL with no UPDATE answer, and both are SHORTMIX of the empty message. -/
def Obligations.EmptyMessageDigestAgrees : Prop :=
  ∀ (s : State) (s1 s2 : Word), ∃ (t u w : State) (r : List Byte),
    exec (oneshotSeeds [] s1 s2) s = .next t ∧ exec (initSeeds s1 s2) s = .next u ∧
    exec .final u = .next w ∧ t.responses = s.responses ++ [r] ∧ w.responses = u.responses ++ [r] ∧
    r = digestResponse (shortmix bheA [] s1 s2)

/-- 60_exceptions.md R124: instances are independent. Stepping one leaves the other as it was, the
stepped one goes where it would alone, and the order of two instances' steps does not matter. -/
def Obligations.InstancesAreIndependent : Prop :=
  ∀ (sys : List State) (j k : Nat), j ≠ k →
    ∃ a b u, systemStep j sys = .next a ∧ systemStep k sys = .next b ∧
      systemStep k a = .next u ∧ systemStep j b = .next u ∧ a[k]? = sys[k]? ∧
      ∀ s, sys[j]? = some s → ∃ t, step s = .next t ∧ a[j]? = some t ∧ u[j]? = some t

/-- 43_oneshot_and_laws.md R106 at its stated inputs: the 60-byte string under the seed pairs (1, 2),
(1, 3), (2, 2): pairwise different. A sanity statement about BHE-A. -/
def Obligations.SeedSensitivityAtStatedInputs : Prop :=
  let fox : List Byte :=
    [0x54, 0x68, 0x65, 0x20, 0x71, 0x75, 0x69, 0x63, 0x6B, 0x20, 0x62, 0x72, 0x6F, 0x77, 0x6E,
     0x20, 0x66, 0x6F, 0x78, 0x20, 0x6A, 0x75, 0x6D, 0x70, 0x73, 0x20, 0x6F, 0x76, 0x65, 0x72,
     0x20, 0x74, 0x68, 0x65, 0x20, 0x6C, 0x61, 0x7A, 0x79, 0x20, 0x64, 0x6F, 0x67, 0x2D, 0x30,
     0x31, 0x32, 0x33, 0x34, 0x35, 0x36, 0x37, 0x38, 0x39, 0x41, 0x42, 0x43, 0x44, 0x45, 0x46]
  digest bheA fox 1 2 ≠ digest bheA fox 1 3 ∧ digest bheA fox 1 2 ≠ digest bheA fox 2 2 ∧
  digest bheA fox 1 3 ≠ digest bheA fox 2 2

/-- 43_oneshot_and_laws.md R109 at chosen fragments (95_test_vectors.md E4): order matters for one pair,
and does not for `ab`, `abab`. A sanity statement about BHE-A. -/
def Obligations.FragmentOrderMatters : Prop :=
  let run := fun (x y : List Byte) =>
    (((State.reset.openContext 1 2).absorb bheA x).absorb bheA y).finalDigest bheA
  let a : List Byte := [0x0B, 0x30, 0x55, 0x7A, 0x9F, 0xC4, 0xE9, 0x0E, 0x33, 0x58]
  run a a.reverse ≠ run a.reverse a ∧
  run [0x61, 0x62] [0x61, 0x62, 0x61, 0x62] = run [0x61, 0x62, 0x61, 0x62] [0x61, 0x62]
end

