-- ==== Sys2Proof/Laws/Bytes.lean ====
section
/-! SUPPORT. The laws of byte order and of the slices the encodings are made of. -/

namespace Sys2Proof.Machine

@[simp] theorem leBytes_length (n v : Nat) : (leBytes n v).length = n := by
  induction n generalizing v with
  | zero => rfl
  | succ n ih => simp [leBytes, ih]

@[simp] theorem bytesLE64_length (w : Word) : (bytesLE64 w).length = 8 := leBytes_length 8 _

/-- Reading back the bytes of a number gives the number, modulo what the bytes can hold. -/
theorem leNat_leBytes (n v : Nat) : leNat (leBytes n v) = v % 256 ^ n := by
  induction n generalizing v with
  | zero => simp [leBytes, leNat, Nat.mod_one]
  | succ n ih =>
    rw [leBytes, leNat, ih, BitVec.toNat_ofNat, show 256 ^ (n + 1) = 256 * 256 ^ n from pow_succ' .., Nat.mod_mul]

/-- A byte string's value fits its length. -/
theorem leNat_lt (s : List Byte) : leNat s < 256 ^ s.length := by
  induction s with
  | nil => simp [leNat]
  | cons b s ih =>
    have := b.isLt
    rw [leNat, List.length_cons, show 256 ^ (s.length + 1) = 256 * 256 ^ s.length from pow_succ' ..]
    omega

/-- The bytes of a string's value are the string. -/
theorem leBytes_leNat (s : List Byte) : leBytes s.length (leNat s) = s := by
  induction s with
  | nil => rfl
  | cons b s ih =>
    have hb := b.isLt
    rw [List.length_cons, leBytes, leNat]
    congr 1
    · apply BitVec.eq_of_toNat_eq
      rw [BitVec.toNat_ofNat]
      omega
    · rw [show (b.toNat + 256 * leNat s) / 256 = leNat s by omega, ih]

theorem slice_append_left {s t : List Byte} {n : Nat} (h : s.length = n) :
    slice (s ++ t) 0 n = s := by
  subst h
  simp [slice]

theorem slice_append_right {s t : List Byte} {i n : Nat} (h : s.length = i) :
    slice (s ++ t) i n = t.take n := by
  subst h
  simp [slice]

theorem slice_length (s : List Byte) (i n : Nat) : (slice s i n).length = min n (s.length - i) := by
  simp [slice]

end Sys2Proof.Machine
end

