-- ==== Sys2Proof/Laws/Decode.lean ====
section
/-! SUPPORT. The fields of a command word as numbers, the command word of a frame, and the decoder as
one case distinction over those numbers. -/

namespace Sys2Proof

open Sys2Proof.Machine

theorem opcField_toNat (cw : BitVec 32) : (opcField cw).toNat = cw.toNat % 256 := by
  simp [opcField, BitVec.extractLsb'_toNat]

theorem klenField_toNat (cw : BitVec 32) : (klenField cw).toNat = cw.toNat / 256 % 32 := by
  simp [klenField, BitVec.extractLsb'_toNat, Nat.shiftRight_eq_div_pow]

theorem rsvField_toNat (cw : BitVec 32) : (rsvField cw).toNat = cw.toNat / 8192 := by
  have := cw.isLt
  simp [rsvField, BitVec.extractLsb'_toNat, Nat.shiftRight_eq_div_pow]
  omega

theorem rsvField_eq_zero (cw : BitVec 32) : rsvField cw = 0 ↔ cw.toNat / 8192 = 0 := by
  rw [← rsvField_toNat, ← BitVec.toNat_inj]; rfl

theorem klenField_eq_zero (cw : BitVec 32) : klenField cw = 0 ↔ cw.toNat / 256 % 32 = 0 := by
  rw [← klenField_toNat, ← BitVec.toNat_inj]; rfl

theorem opcField_eq (cw : BitVec 32) {c : Nat} (h : c < 256) :
    opcField cw = BitVec.ofNat 8 c ↔ cw.toNat % 256 = c := by
  rw [← opcField_toNat, ← BitVec.toNat_inj, BitVec.toNat_ofNat, Nat.mod_eq_of_lt h]

/-- The command word of a frame is the value of its first four bytes (R41). -/
theorem le32_take_toNat (frame : List Byte) : (le32 (frame.take 4)).toNat = leNat (frame.take 4) := by
  have h := leNat_lt (frame.take 4)
  have h4 : 256 ^ (frame.take 4).length ≤ 2 ^ 32 := by
    rw [show (2 : Nat) ^ 32 = 256 ^ 4 by norm_num]
    exact Nat.pow_le_pow_right (by omega) (by simp)
  rw [le32, BitVec.toNat_ofNat, Nat.mod_eq_of_lt (by omega)]

/-- An eight-byte field is the value of its bytes (R33). -/
theorem le64_toNat {s : List Byte} (h : s.length ≤ 8) : (le64 s).toNat = leNat s := by
  have h1 := leNat_lt s
  have h8 : 256 ^ s.length ≤ 2 ^ 64 := by
    rw [show (2 : Nat) ^ 64 = 256 ^ 8 by norm_num]
    exact Nat.pow_le_pow_right (by omega) h
  rw [le64, BitVec.toNat_ofNat, Nat.mod_eq_of_lt (by omega)]

theorem le64_slice_toNat (s : List Byte) (i : Nat) :
    (le64 (slice s i 8)).toNat = leNat (slice s i 8) :=
  le64_toNat (by rw [slice_length]; omega)

/-- `decode` in numbers: `n` the frame's length, `cw` its command word, `k` its KLEN (R50). -/
theorem decode_eq {frame : List Byte} {n cw k : Nat} (hn : frame.length = n)
    (hcw : leNat (frame.take 4) = cw) (hk : cw / 256 % 32 = k) :
    decode frame =
      if n < 4 then .error .badFrame
      else if cw / 8192 ≠ 0 then .error .illegalCmd
      else if cw % 256 = 1 then
        if 16 < k then .error .keyTooLong
        else if n ≠ 4 + k then .error .badFrame
        else .ok (.init (slice frame 4 k))
      else if cw % 256 = 2 then
        if k ≠ 0 then .error .illegalCmd
        else if n < 12 then .error .badFrame
        else if n ≠ 12 + leNat (slice frame 4 8) then .error .badFrame
        else .ok (.update (frame.drop 12))
      else if cw % 256 = 3 then
        if k ≠ 0 then .error .illegalCmd
        else if n ≠ 4 then .error .badFrame
        else .ok .final
      else if cw % 256 = 4 then
        if 16 < k then .error .keyTooLong
        else if n < 12 + k then .error .badFrame
        else if n ≠ 12 + k + leNat (slice frame (4 + k) 8) then .error .badFrame
        else .ok (.oneshot (slice frame 4 k) (frame.drop (12 + k)))
      else .error .illegalCmd := by
  subst hn hcw hk
  have e1 : opcField (le32 (frame.take 4)) = 0x01 ↔ leNat (frame.take 4) % 256 = 1 := by
    rw [← le32_take_toNat]; exact opcField_eq _ (by decide)
  have e2 : opcField (le32 (frame.take 4)) = 0x02 ↔ leNat (frame.take 4) % 256 = 2 := by
    rw [← le32_take_toNat]; exact opcField_eq _ (by decide)
  have e3 : opcField (le32 (frame.take 4)) = 0x03 ↔ leNat (frame.take 4) % 256 = 3 := by
    rw [← le32_take_toNat]; exact opcField_eq _ (by decide)
  have e4 : opcField (le32 (frame.take 4)) = 0x04 ↔ leNat (frame.take 4) % 256 = 4 := by
    rw [← le32_take_toNat]; exact opcField_eq _ (by decide)
  have ek := klenField_eq_zero (le32 (frame.take 4))
  have er := rsvField_eq_zero (le32 (frame.take 4))
  rw [le32_take_toNat] at ek er
  simp only [decode, decodeCommandWord, decodeOperands, decodeInit, decodeUpdate, decodeFinal,
    decodeOneshot, klenField_toNat, le32_take_toNat, le64_slice_toNat, e1, e2, e3, e4, ek, er, ne_eq]
  by_cases h0 : frame.length < 4
  · simp [h0]
  by_cases hr : leNat (frame.take 4) / 8192 = 0
  · generalize leNat (frame.take 4) = cw at *
    by_cases h1 : cw % 256 = 1
    · simp [h0, hr, h1]
    by_cases h2 : cw % 256 = 2
    · simp [h0, hr, h2]
    by_cases h3 : cw % 256 = 3
    · simp [h0, hr, h3]
    by_cases h4 : cw % 256 = 4
    · simp [h0, hr, h4]
    simp [h0, hr, h1, h2, h3, h4]
  · simp [h0, hr]

end Sys2Proof
end

