-- ==== Sys2Proof/Laws/Exec.lean ====
section
/-! SUPPORT. One equation for each path of each meaning and of the step, so that no later proof unfolds
them: what is answered, on which condition. -/

namespace Sys2Proof.Machine

open Sys2Proof.Config

theorem overflows_iff (s : State) (n : Nat) :
    overflows s n = true ↔ 2 ^ 64 - 1 < s.totalLength.toNat + n := decide_eq_true_iff

theorem primed_iff (s : State) : primed s = true ↔ 96 ≤ s.totalLength.toNat := decide_eq_true_iff

theorem exec_init_ok {key : List Byte} (h : key.length ≤ 16) (s : State) :
    exec (.init key) s =
      .next ((s.openContext (seed1 key) (seed2 key)).answer (statusResponse .ok)) :=
  if_neg (Nat.not_lt.mpr h)

theorem exec_init_keyTooLong {key : List Byte} (h : 16 < key.length) (s : State) :
    exec (.init key) s = .next (s.refuse .keyTooLong) :=
  if_pos h

theorem exec_oneshot_ok {key : List Byte} (h : key.length ≤ 16) (message : List Byte) (s : State) :
    exec (.oneshot key message) s =
      .next (s.answer (digestResponse (digest bheA message (seed1 key) (seed2 key)))) :=
  if_neg (Nat.not_lt.mpr h)

theorem exec_oneshot_keyTooLong {key : List Byte} (h : 16 < key.length) (message : List Byte)
    (s : State) : exec (.oneshot key message) s = .next (s.refuse .keyTooLong) :=
  if_pos h

theorem exec_final_noContext {s : State} (h : s.valid = false) :
    exec .final s = .next (s.refuse .noContext) :=
  if_pos h

theorem exec_final_ok {s : State} (h : s.valid = true) :
    exec .final s = .next (s.answer (digestResponse (s.finalDigest bheA))) :=
  if_neg (by simp [h])

theorem exec_update_noContext {s : State} (h : s.valid = false) (data : List Byte) :
    exec (.update data) s = .next (s.refuse .noContext) :=
  if_pos h

theorem exec_update_lenOverflow {s : State} (h : s.valid = true) {data : List Byte}
    (ho : 2 ^ 64 - 1 < s.totalLength.toNat + data.length) :
    exec (.update data) s = .next (s.refuse .lenOverflow) := by
  show execUpdate data s = _
  rw [execUpdate, if_neg (by simp [h]), if_pos ((overflows_iff s _).mpr ho)]

theorem exec_update_ok {s : State} (h : s.valid = true) {data : List Byte}
    (ho : s.totalLength.toNat + data.length ≤ 2 ^ 64 - 1) :
    exec (.update data) s = .next ((s.absorb bheA data).answer (statusResponse .ok)) := by
  show execUpdate data s = _
  rw [execUpdate, if_neg (by simp [h]),
    if_neg fun hc => Nat.not_lt.mpr ho ((overflows_iff s _).mp hc)]

theorem step_idle {s : State} (h : s.port = []) : step s = .next s := by
  rw [step, h]

theorem step_command {s : State} {frame : List Byte} {rest : List PortEvent} {i : Instr}
    (h : s.port = .command frame :: rest) (hd : decode frame = .ok i) :
    step s = exec i s.takeEvent := by
  simp only [step, h, hd]

theorem step_rejected {s : State} {frame : List Byte} {rest : List PortEvent} {r : Reject}
    (h : s.port = .command frame :: rest) (hd : decode frame = .error r) :
    step s = .next (s.takeEvent.rejectFrame r) := by
  simp only [step, h, hd]

theorem step_reset {s : State} {rest : List PortEvent} (h : s.port = .reset :: rest) :
    step s = .next s.takeEvent.applyReset := by
  simp only [step, h]

theorem step_resetDuring {s : State} {frame : List Byte} {rest : List PortEvent}
    (h : s.port = .resetDuring frame :: rest) : step s = .next s.takeEvent.applyReset := by
  simp only [step, h]

end Sys2Proof.Machine
end

