-- ==== Sys2Proof/Laws/Memory.lean ====
section
/-! SUPPORT. The laws of the buffer's operations: read after write, what a write leaves alone, and
that every operation keeps the canonical form. -/

namespace Sys2Proof.Machine

@[simp] theorem Memory.read_nil (a : Nat) : Memory.read [] a = none := rfl

theorem Memory.read_cons (k : Nat) (b : Byte) (t : Memory) (a : Nat) :
    Memory.read ((k, b) :: t) a =
      if a = k then some b else if a < k then none else Memory.read t a := rfl

theorem Memory.write_cons (k : Nat) (c : Byte) (t : Memory) (a : Nat) (b : Byte) :
    Memory.write ((k, c) :: t) a b =
      if a < k then (a, b) :: (k, c) :: t
      else if a = k then (a, b) :: t else (k, c) :: Memory.write t a b := rfl

/-- A read after a write: the written byte at its offset, everything else as before. -/
theorem Memory.read_write (m : Memory) (a : Nat) (b : Byte) (x : Nat) :
    (Memory.write m a b).read x = if x = a then some b else m.read x := by
  induction m with
  | nil => simp only [Memory.write, Memory.read_cons, Memory.read_nil, ite_self]
  | cons c t ih =>
    obtain ⟨k, c⟩ := c
    rw [Memory.write_cons]
    split_ifs with h1 h2 h3 h3 h3 <;> simp only [Memory.read_cons, ih] <;> split_ifs <;>
      first | rfl | omega

/-- A read after writing a byte string at `a`. -/
theorem Memory.read_writeBytes (m : Memory) (a : Nat) (bs : List Byte) (x : Nat) :
    (m.writeBytes a bs).read x =
      if a ≤ x ∧ x < a + bs.length then bs[x - a]? else m.read x := by
  induction bs generalizing m a with
  | nil => simp [Memory.writeBytes]
  | cons b bs ih =>
    rw [Memory.writeBytes, ih, Memory.read_write]
    by_cases hx : x = a
    · subst hx; simp
    · by_cases hr : a + 1 ≤ x ∧ x < a + 1 + bs.length
      · have h : x - a = (x - (a + 1)) + 1 := by omega
        rw [if_pos hr, if_pos (by simp; omega), h, List.getElem?_cons_succ]
      · rw [if_neg hr, if_neg hx, if_neg (by simp; omega)]

@[simp] theorem Memory.writeBytes_nil (m : Memory) (a : Nat) : m.writeBytes a [] = m := rfl

/-- Keeping the cells below `n` keeps every byte that is listed there. -/
theorem Memory.read_keepBelow_of_some {m : Memory} {n x : Nat} {b : Byte} (hx : x < n)
    (h : m.read x = some b) : (m.keepBelow n).read x = some b := by
  induction m with
  | nil => simp at h
  | cons c t ih =>
    obtain ⟨k, c⟩ := c
    rw [Memory.read_cons] at h
    by_cases hk : k < n
    · rw [Memory.keepBelow, List.filter_cons_of_pos (by simpa using hk), Memory.read_cons]
      split_ifs at h ⊢ <;> first | exact h | exact ih h
    · rw [if_neg (by omega), if_pos (by omega)] at h
      cases h

/-- In a buffer of canonical form, exactly the bytes at `n` and above are dropped. -/
theorem Memory.read_keepBelow {m : Memory} (hm : Memory.wf m) (n x : Nat) :
    (m.keepBelow n).read x = if x < n then m.read x else none := by
  obtain ⟨hs, -⟩ := hm
  induction m with
  | nil => simp [Memory.keepBelow]
  | cons c t ih =>
    obtain ⟨k, c⟩ := c
    obtain ⟨hk, ht⟩ := List.pairwise_cons.mp hs
    have ih := ih ht
    by_cases hkn : k < n
    · rw [Memory.keepBelow, List.filter_cons_of_pos (by simpa using hkn), Memory.read_cons,
        Memory.read_cons, ← Memory.keepBelow, ih]
      split_ifs <;> first | rfl | omega
    · rw [Memory.keepBelow, List.filter_cons_of_neg (by simpa using hkn), ← Memory.keepBelow, ih,
        Memory.read_cons]
      split_ifs with hx h1 h2
      · omega
      · cases t with
        | nil => rfl
        | cons d u =>
          obtain ⟨j, d⟩ := d
          have := hk (j, d) (by simp)
          rw [Memory.read_cons, if_neg (by dsimp at this; omega), if_pos (by dsimp at this; omega)]
      · omega
      · rfl

theorem Memory.mem_write {m : Memory} {a : Nat} {b : Byte} {c : Host.Cell}
    (h : c ∈ Memory.write m a b) : c = (a, b) ∨ c ∈ m := by
  induction m with
  | nil => simpa [Memory.write] using h
  | cons d t ih =>
    obtain ⟨k, d⟩ := d
    rw [Memory.write_cons] at h
    split_ifs at h
    · simpa using h
    · rcases List.mem_cons.mp h with h | h
      · exact .inl h
      · exact .inr (List.mem_cons_of_mem _ h)
    · rcases List.mem_cons.mp h with h | h
      · exact .inr (h ▸ List.mem_cons_self)
      · exact (ih h).imp id (List.mem_cons_of_mem _)

/-- Writing a byte of the buffer keeps the canonical form. -/
theorem Memory.write_wf {m : Memory} (hm : Memory.wf m) {a : Nat} (ha : a < 96) (b : Byte) :
    Memory.wf (Memory.write m a b) := by
  refine ⟨?_, fun c hc => (Memory.mem_write hc).elim (fun h => h ▸ ha) (hm.2 c)⟩
  obtain ⟨hs, -⟩ := hm
  induction m with
  | nil => simp [Memory.write]
  | cons c t ih =>
    obtain ⟨k, c⟩ := c
    obtain ⟨hk, ht⟩ := List.pairwise_cons.mp hs
    rw [Memory.write_cons]
    split_ifs with h1 h2
    · refine List.pairwise_cons.mpr ⟨fun d hd => ?_, hs⟩
      rcases List.mem_cons.mp hd with rfl | hd
      · exact h1
      · exact h1.trans (hk d hd)
    · subst h2
      exact List.pairwise_cons.mpr ⟨hk, ht⟩
    · refine List.pairwise_cons.mpr ⟨fun d hd => ?_, ih ht⟩
      rcases Memory.mem_write hd with rfl | hd
      · show k < a
        omega
      · exact hk d hd

/-- Writing a byte string inside the buffer keeps the canonical form. -/
theorem Memory.writeBytes_wf {m : Memory} (hm : Memory.wf m) {a : Nat} {bs : List Byte}
    (ha : a + bs.length ≤ 96) : Memory.wf (m.writeBytes a bs) := by
  induction bs generalizing m a with
  | nil => exact hm
  | cons b bs ih =>
    rw [List.length_cons] at ha
    exact ih (Memory.write_wf hm (by omega) b) (by omega)

/-- Dropping bytes keeps the canonical form. -/
theorem Memory.keepBelow_wf {m : Memory} (hm : Memory.wf m) (n : Nat) :
    Memory.wf (m.keepBelow n) :=
  ⟨hm.1.sublist List.filter_sublist, fun c hc => hm.2 c (List.mem_of_mem_filter hc)⟩

/-- The state after reset has a buffer of canonical form. -/
theorem State.reset_buf_wf : Memory.wf State.reset.buf := by decide

end Sys2Proof.Machine
end

