-- ==== Sys2Proof/Laws/Mixers.lean ====
section
/-! SUPPORT. The laws of the block fold and of the blocks cut from a message. -/

namespace Sys2Proof.Machine

open Sys2Proof.Config

variable (v : Variant)

@[simp] theorem mixBlocks_zero (x : Lanes) (s : List Byte) (off : Nat) :
    mixBlocks v x s off 0 = x := by
  rw [mixBlocks]

theorem mixBlocks_succ (x : Lanes) (s : List Byte) (off n : Nat) :
    mixBlocks v x s off (n + 1) =
      mixBlocks v (blockmix v x (blockAt s off)) s (off + 96) n := by
  rw [mixBlocks]

/-- Byte `j` of a block cut from a message. -/
theorem blockAt_getElem (s : List Byte) (off j : Nat) (h : j < 96) :
    (blockAt s off)[j] = s.getD (off + j) 0 := by
  rw [blockAt, Vector.getElem_ofFn, List.getD_eq_getElem?_getD, List.getD_eq_getElem?_getD,
    List.getElem?_drop]

/-- The block at an offset is the block at the start of what follows the offset. -/
theorem blockAt_drop (s : List Byte) (a off : Nat) :
    blockAt (s.drop a) off = blockAt s (a + off) := by
  rw [blockAt, blockAt, List.drop_drop]

/-- A block that lies inside `s` is not changed by what is appended to `s`. -/
theorem blockAt_append {s : List Byte} {off : Nat} (h : off + 96 ≤ s.length) (t : List Byte) :
    blockAt (s ++ t) off = blockAt s off := by
  apply Vector.ext
  intro j hj
  rw [blockAt_getElem, blockAt_getElem, List.getD_eq_getElem?_getD, List.getD_eq_getElem?_getD,
    List.getElem?_append_left (by omega)]

/-- The blocks of what follows an offset are the blocks from that offset on. -/
theorem mixBlocks_drop (x : Lanes) (s : List Byte) (a off n : Nat) :
    mixBlocks v x (s.drop a) off n = mixBlocks v x s (a + off) n := by
  induction n generalizing x off with
  | zero => simp
  | succ n ih => rw [mixBlocks_succ, mixBlocks_succ, ih, blockAt_drop, Nat.add_assoc]

/-- Blocks that lie inside `s` are not changed by what is appended to `s`. -/
theorem mixBlocks_append {s : List Byte} {off n : Nat} (h : off + 96 * n ≤ s.length) (x : Lanes)
    (t : List Byte) : mixBlocks v x (s ++ t) off n = mixBlocks v x s off n := by
  induction n generalizing x off with
  | zero => simp
  | succ n ih =>
    rw [mixBlocks_succ, mixBlocks_succ, blockAt_append (by omega), ih (by omega)]

/-- The fold may be cut after any number of blocks. -/
theorem mixBlocks_add (x : Lanes) (s : List Byte) (off m n : Nat) :
    mixBlocks v x s off (m + n) = mixBlocks v (mixBlocks v x s off m) s (off + 96 * m) n := by
  induction m generalizing x off with
  | zero => simp
  | succ m ih =>
    rw [Nat.add_right_comm, mixBlocks_succ, mixBlocks_succ, ih,
      show off + 96 + 96 * m = off + 96 * (m + 1) by ring]

theorem messageTail_length (s : List Byte) : (messageTail s).length = s.length % 96 := by
  rw [messageTail, List.length_drop]
  omega

/-- Below one block the tail is the whole message. -/
theorem messageTail_of_lt {s : List Byte} (h : s.length < 96) : messageTail s = s := by
  rw [messageTail, Nat.div_eq_of_lt h, Nat.mul_zero, List.drop_zero]

/-- Dropping whole blocks from the front leaves the tail. -/
theorem messageTail_append_blocks {b : List Byte} (h : b.length % 96 = 0) (t : List Byte) :
    messageTail (b ++ t) = messageTail t := by
  have hb : 96 * (b.length / 96) = b.length := by omega
  rw [messageTail, messageTail, List.length_append,
    show 96 * ((b.length + t.length) / 96) = b.length + 96 * (t.length / 96) by omega,
    ← List.drop_drop, List.drop_left]

/-- Appending to a message is appending to its tail, up to whole blocks. -/
theorem messageTail_append (s t : List Byte) :
    messageTail (s ++ t) = messageTail (messageTail s ++ t) := by
  conv_lhs => rw [← List.take_append_drop (96 * (s.length / 96)) s, List.append_assoc]
  exact messageTail_append_blocks (by rw [List.length_take]; omega) _

end Sys2Proof.Machine
end

