-- ==== Sys2Proof/Laws/State.lean ====
section
/-! SUPPORT. One lemma for each field of the state under each update, true by rfl, so that no later
proof unfolds a record update. -/

namespace Sys2Proof.Machine

variable (s : State)

@[simp] theorem State.setLanes_h (x : Lanes) : (s.setLanes x).h = x := rfl
@[simp] theorem State.setLanes_buf (x : Lanes) : (s.setLanes x).buf = s.buf := rfl
@[simp] theorem State.setLanes_pending (x : Lanes) : (s.setLanes x).pending = s.pending := rfl
@[simp] theorem State.setLanes_totalLength (x : Lanes) : (s.setLanes x).totalLength = s.totalLength := rfl
@[simp] theorem State.setLanes_valid (x : Lanes) : (s.setLanes x).valid = s.valid := rfl
@[simp] theorem State.setLanes_port (x : Lanes) : (s.setLanes x).port = s.port := rfl
@[simp] theorem State.setLanes_responses (x : Lanes) : (s.setLanes x).responses = s.responses := rfl
@[simp] theorem State.setLanes_freeCount (x : Lanes) : (s.setLanes x).freeCount = s.freeCount := rfl

@[simp] theorem State.setBuf_h (m : Memory) : (s.setBuf m).h = s.h := rfl
@[simp] theorem State.setBuf_buf (m : Memory) : (s.setBuf m).buf = m := rfl
@[simp] theorem State.setBuf_pending (m : Memory) : (s.setBuf m).pending = s.pending := rfl
@[simp] theorem State.setBuf_totalLength (m : Memory) : (s.setBuf m).totalLength = s.totalLength := rfl
@[simp] theorem State.setBuf_valid (m : Memory) : (s.setBuf m).valid = s.valid := rfl
@[simp] theorem State.setBuf_port (m : Memory) : (s.setBuf m).port = s.port := rfl
@[simp] theorem State.setBuf_responses (m : Memory) : (s.setBuf m).responses = s.responses := rfl
@[simp] theorem State.setBuf_freeCount (m : Memory) : (s.setBuf m).freeCount = s.freeCount := rfl

@[simp] theorem State.setPending_h (n : Nat) : (s.setPending n).h = s.h := rfl
@[simp] theorem State.setPending_buf (n : Nat) : (s.setPending n).buf = s.buf := rfl
@[simp] theorem State.setPending_pending (n : Nat) : (s.setPending n).pending = BitVec.ofNat 7 n := rfl
@[simp] theorem State.setPending_totalLength (n : Nat) : (s.setPending n).totalLength = s.totalLength := rfl
@[simp] theorem State.setPending_valid (n : Nat) : (s.setPending n).valid = s.valid := rfl
@[simp] theorem State.setPending_port (n : Nat) : (s.setPending n).port = s.port := rfl
@[simp] theorem State.setPending_responses (n : Nat) : (s.setPending n).responses = s.responses := rfl
@[simp] theorem State.setPending_freeCount (n : Nat) : (s.setPending n).freeCount = s.freeCount := rfl

@[simp] theorem State.setTotalLength_h (n : Nat) : (s.setTotalLength n).h = s.h := rfl
@[simp] theorem State.setTotalLength_buf (n : Nat) : (s.setTotalLength n).buf = s.buf := rfl
@[simp] theorem State.setTotalLength_pending (n : Nat) : (s.setTotalLength n).pending = s.pending := rfl
@[simp] theorem State.setTotalLength_totalLength (n : Nat) : (s.setTotalLength n).totalLength = BitVec.ofNat 64 n := rfl
@[simp] theorem State.setTotalLength_valid (n : Nat) : (s.setTotalLength n).valid = s.valid := rfl
@[simp] theorem State.setTotalLength_port (n : Nat) : (s.setTotalLength n).port = s.port := rfl
@[simp] theorem State.setTotalLength_responses (n : Nat) : (s.setTotalLength n).responses = s.responses := rfl
@[simp] theorem State.setTotalLength_freeCount (n : Nat) : (s.setTotalLength n).freeCount = s.freeCount := rfl

@[simp] theorem State.setValid_h (b : Bool) : (s.setValid b).h = s.h := rfl
@[simp] theorem State.setValid_buf (b : Bool) : (s.setValid b).buf = s.buf := rfl
@[simp] theorem State.setValid_pending (b : Bool) : (s.setValid b).pending = s.pending := rfl
@[simp] theorem State.setValid_totalLength (b : Bool) : (s.setValid b).totalLength = s.totalLength := rfl
@[simp] theorem State.setValid_valid (b : Bool) : (s.setValid b).valid = b := rfl
@[simp] theorem State.setValid_port (b : Bool) : (s.setValid b).port = s.port := rfl
@[simp] theorem State.setValid_responses (b : Bool) : (s.setValid b).responses = s.responses := rfl
@[simp] theorem State.setValid_freeCount (b : Bool) : (s.setValid b).freeCount = s.freeCount := rfl

@[simp] theorem State.setPort_h (p : List PortEvent) : (s.setPort p).h = s.h := rfl
@[simp] theorem State.setPort_buf (p : List PortEvent) : (s.setPort p).buf = s.buf := rfl
@[simp] theorem State.setPort_pending (p : List PortEvent) : (s.setPort p).pending = s.pending := rfl
@[simp] theorem State.setPort_totalLength (p : List PortEvent) : (s.setPort p).totalLength = s.totalLength := rfl
@[simp] theorem State.setPort_valid (p : List PortEvent) : (s.setPort p).valid = s.valid := rfl
@[simp] theorem State.setPort_port (p : List PortEvent) : (s.setPort p).port = p := rfl
@[simp] theorem State.setPort_responses (p : List PortEvent) : (s.setPort p).responses = s.responses := rfl
@[simp] theorem State.setPort_freeCount (p : List PortEvent) : (s.setPort p).freeCount = s.freeCount := rfl

@[simp] theorem State.answer_h (r : List Byte) : (s.answer r).h = s.h := rfl
@[simp] theorem State.answer_buf (r : List Byte) : (s.answer r).buf = s.buf := rfl
@[simp] theorem State.answer_pending (r : List Byte) : (s.answer r).pending = s.pending := rfl
@[simp] theorem State.answer_totalLength (r : List Byte) : (s.answer r).totalLength = s.totalLength := rfl
@[simp] theorem State.answer_valid (r : List Byte) : (s.answer r).valid = s.valid := rfl
@[simp] theorem State.answer_port (r : List Byte) : (s.answer r).port = s.port := rfl
@[simp] theorem State.answer_responses (r : List Byte) : (s.answer r).responses = s.responses ++ [r] := rfl
@[simp] theorem State.answer_freeCount (r : List Byte) : (s.answer r).freeCount = s.freeCount := rfl

@[simp] theorem State.freshen_h : s.freshen.h = s.h := rfl
@[simp] theorem State.freshen_buf : s.freshen.buf = s.buf := rfl
@[simp] theorem State.freshen_pending : s.freshen.pending = s.pending := rfl
@[simp] theorem State.freshen_totalLength : s.freshen.totalLength = s.totalLength := rfl
@[simp] theorem State.freshen_valid : s.freshen.valid = s.valid := rfl
@[simp] theorem State.freshen_port : s.freshen.port = s.port := rfl
@[simp] theorem State.freshen_responses : s.freshen.responses = s.responses := rfl
@[simp] theorem State.freshen_freeCount : s.freshen.freeCount = s.freeCount + 1 := rfl

@[simp] theorem State.refuse_h (st : Status) : (s.refuse st).h = s.h := rfl
@[simp] theorem State.refuse_buf (st : Status) : (s.refuse st).buf = s.buf := rfl
@[simp] theorem State.refuse_pending (st : Status) : (s.refuse st).pending = s.pending := rfl
@[simp] theorem State.refuse_totalLength (st : Status) : (s.refuse st).totalLength = s.totalLength := rfl
@[simp] theorem State.refuse_valid (st : Status) : (s.refuse st).valid = s.valid := rfl
@[simp] theorem State.refuse_port (st : Status) : (s.refuse st).port = s.port := rfl
@[simp] theorem State.refuse_responses (st : Status) : (s.refuse st).responses = s.responses ++ [statusResponse st] := rfl
@[simp] theorem State.refuse_freeCount (st : Status) : (s.refuse st).freeCount = s.freeCount := rfl

@[simp] theorem State.takeEvent_port : s.takeEvent.port = s.port.tail := rfl
@[simp] theorem State.takeEvent_h : s.takeEvent.h = s.h := rfl
@[simp] theorem State.takeEvent_buf : s.takeEvent.buf = s.buf := rfl
@[simp] theorem State.takeEvent_pending : s.takeEvent.pending = s.pending := rfl
@[simp] theorem State.takeEvent_totalLength : s.takeEvent.totalLength = s.totalLength := rfl
@[simp] theorem State.takeEvent_valid : s.takeEvent.valid = s.valid := rfl
@[simp] theorem State.takeEvent_responses : s.takeEvent.responses = s.responses := rfl
@[simp] theorem State.takeEvent_freeCount : s.takeEvent.freeCount = s.freeCount := rfl

@[simp] theorem State.offerFirst_port (f : List Byte) :
    (s.offerFirst f).port = .command f :: s.port := rfl
@[simp] theorem State.offerFirst_h (f : List Byte) : (s.offerFirst f).h = s.h := rfl
@[simp] theorem State.offerFirst_buf (f : List Byte) : (s.offerFirst f).buf = s.buf := rfl
@[simp] theorem State.offerFirst_pending (f : List Byte) : (s.offerFirst f).pending = s.pending := rfl
@[simp] theorem State.offerFirst_totalLength (f : List Byte) : (s.offerFirst f).totalLength = s.totalLength := rfl
@[simp] theorem State.offerFirst_valid (f : List Byte) : (s.offerFirst f).valid = s.valid := rfl
@[simp] theorem State.offerFirst_responses (f : List Byte) : (s.offerFirst f).responses = s.responses := rfl
@[simp] theorem State.offerFirst_freeCount (f : List Byte) : (s.offerFirst f).freeCount = s.freeCount := rfl

/-- Taking the event just offered leaves the state as it was. -/
@[simp] theorem State.takeEvent_offerFirst (f : List Byte) : (s.offerFirst f).takeEvent = s := rfl

end Sys2Proof.Machine
end

