-- ==== Sys2Proof/Laws/Ops.lean ====
section
/-! SUPPORT. One lemma for each shared operation that says everything it can do: what BUFFER, FLUSH,
INIT's effect and reset leave in every field. -/

namespace Sys2Proof.Machine

open Sys2Proof.Config

variable (v : Variant) (s : State)

/-! ### Reading the buffer -/

@[simp] theorem State.validBytes_length : s.validBytes.length = s.pending.toNat := by
  simp [State.validBytes]

theorem State.validBytes_getElem (j : Nat) (h : j < s.validBytes.length) :
    s.validBytes[j] = s.bufByte j := by
  simp [State.validBytes]

theorem State.bufByte_of_read {j : Nat} {b : Byte} (h : s.buf.read j = some b) :
    s.bufByte j = b := by
  rw [State.bufByte, h, Option.getD_some]

/-- A buffer that lists a byte string from offset 0 on holds it as its valid bytes. -/
theorem State.validBytes_eq {m : List Byte} (hp : s.pending.toNat = m.length)
    (h : ∀ j < s.pending.toNat, s.buf.read j = m[j]?) : s.validBytes = m := by
  apply List.ext_getElem (by simpa using hp)
  intro j h1 h2
  rw [State.validBytes_getElem, s.bufByte_of_read ((h j (by omega)).trans (List.getElem?_eq_getElem h2))]

@[simp] theorem State.validBytes_answer (r : List Byte) : (s.answer r).validBytes = s.validBytes :=
  rfl

@[simp] theorem State.validBytes_takeEvent : s.takeEvent.validBytes = s.validBytes := rfl

/-! ### INIT's effect and reset -/

/-- What INIT leaves (R80). -/
theorem State.openContext_fields (s1 s2 : Word) :
    let t := s.openContext s1 s2
    t.h = rawLanes s1 s2 ∧ t.buf = s.buf ∧ t.pending = 0 ∧ t.totalLength = 0 ∧ t.valid = true ∧
      t.port = s.port ∧ t.responses = s.responses ∧ t.freeCount = s.freeCount :=
  ⟨rfl, rfl, rfl, rfl, rfl, rfl, rfl, rfl⟩

/-- What reset leaves (R130, R132). -/
theorem State.applyReset_fields :
    let t := s.applyReset
    t.valid = false ∧ t.buf = [] ∧ t.port = s.port ∧ t.responses = s.responses ∧
      t.freeCount = s.freeCount + 1 :=
  ⟨rfl, rfl, rfl, rfl, rfl⟩

/-! ### BUFFER -/

/-- What BUFFER leaves in the fields it does not compute (R82). -/
theorem State.bufferData_frame (data : List Byte) :
    let t := s.bufferData data
    t.h = s.h ∧ t.valid = s.valid ∧ t.port = s.port ∧ t.responses = s.responses ∧
      t.freeCount = s.freeCount :=
  ⟨rfl, rfl, rfl, rfl, rfl⟩

/-- BUFFER's counters (R82). -/
theorem State.bufferData_counters {data : List Byte} (hp : s.pending.toNat + data.length < 96)
    (ho : s.totalLength.toNat + data.length ≤ 2 ^ 64 - 1) :
    (s.bufferData data).pending.toNat = s.pending.toNat + data.length ∧
      (s.bufferData data).totalLength.toNat = s.totalLength.toNat + data.length := by
  constructor
  · show (BitVec.ofNat 7 _).toNat = _
    rw [BitVec.toNat_ofNat]
    omega
  · show (BitVec.ofNat 64 _).toNat = _
    rw [BitVec.toNat_ofNat]
    omega

/-- BUFFER writes the payload from `pending` on and no other byte (R82). -/
theorem State.bufferData_read (data : List Byte) (a : Nat) :
    (s.bufferData data).buf.read a =
      if s.pending.toNat ≤ a ∧ a < s.pending.toNat + data.length then data[a - s.pending.toNat]?
      else s.buf.read a :=
  Memory.read_writeBytes ..

/-- BUFFER appends the payload to the valid bytes (R82). -/
theorem State.bufferData_validBytes {data : List Byte}
    (hp : s.pending.toNat + data.length < 96) :
    (s.bufferData data).validBytes = s.validBytes ++ data := by
  have hq : (s.bufferData data).pending.toNat = s.pending.toNat + data.length := by
    show (BitVec.ofNat 7 _).toNat = _
    rw [BitVec.toNat_ofNat]
    omega
  apply List.ext_getElem
  · simp [hq]
  · intro j h1 h2
    rw [State.validBytes_getElem, State.bufByte, State.bufferData_read, List.getElem_append]
    simp only [State.validBytes_length, hq] at h1 ⊢
    split_ifs with h3 h4 h4
    · omega
    · rw [List.getElem?_eq_getElem (by omega), Option.getD_some]
    · rw [State.validBytes_getElem]; rfl
    · omega

/-- BUFFER keeps the canonical form (R82). -/
theorem State.bufferData_wf {data : List Byte} (hm : Memory.wf s.buf)
    (hp : s.pending.toNat + data.length ≤ 96) : Memory.wf (s.bufferData data).buf :=
  Memory.writeBytes_wf hm hp

/-! ### FLUSH -/

/-- PRIME touches the lanes alone (R63). -/
theorem State.primeOnce_frame :
    (s.primeOnce v).buf = s.buf ∧ (s.primeOnce v).pending = s.pending ∧
      (s.primeOnce v).totalLength = s.totalLength ∧ (s.primeOnce v).valid = s.valid ∧
      (s.primeOnce v).port = s.port ∧ (s.primeOnce v).responses = s.responses ∧
      (s.primeOnce v).freeCount = s.freeCount := by
  rw [State.primeOnce]
  split_ifs <;> simp

/-- The lanes after PRIME has run at most once (R83 step 1). -/
theorem State.primeOnce_h :
    (s.primeOnce v).h =
      if s.totalLength.toNat < 96 then prime v s.h[0] s.h[1] else s.h := by
  rw [State.primeOnce, primed]
  by_cases h : s.totalLength.toNat < 96
  · rw [if_pos h, if_neg (by simpa using h), State.setLanes_h]
  · rw [if_neg h, if_pos (by simpa using h)]

@[simp] theorem State.primeOnce_validBytes : (s.primeOnce v).validBytes = s.validBytes := by
  obtain ⟨hb, hq, -, -, -, -, hf⟩ := s.primeOnce_frame v
  simp only [State.validBytes, hq]
  congr 1
  funext j
  rw [State.bufByte, State.bufByte, hb, hf]

/-- Topping off touches the lanes and the buffer alone (R83 steps 2 and 3). -/
theorem State.topOff_frame (data : List Byte) :
    (s.topOff v data).buf =
        s.buf.writeBytes s.pending.toNat (data.take (96 - s.pending.toNat)) ∧
      (s.topOff v data).pending = s.pending ∧ (s.topOff v data).totalLength = s.totalLength ∧
      (s.topOff v data).valid = s.valid ∧ (s.topOff v data).port = s.port ∧
      (s.topOff v data).responses = s.responses ∧
      (s.topOff v data).freeCount = s.freeCount := by
  simp [State.topOff]

/-- The buffer topped off is the first block of the valid bytes followed by the payload (R83). -/
theorem State.topOff_h {data : List Byte} (hp : s.pending.toNat < 96)
    (hl : 96 ≤ s.pending.toNat + data.length) :
    (s.topOff v data).h = blockmix v s.h (blockAt (s.validBytes ++ data) 0) := by
  rw [State.topOff, State.setLanes_h, State.setBuf_h]
  refine congrArg (blockmix v s.h) (Vector.ext ?_)
  intro j hj
  rw [blockAt_getElem _ _ _ hj, State.bufBlock, Vector.getElem_ofFn, State.bufByte,
    State.setBuf_buf, Memory.read_writeBytes, List.getD_eq_getElem?_getD, Nat.zero_add]
  simp only [List.length_take]
  by_cases h : j < s.pending.toNat
  · rw [if_neg (by omega), List.getElem?_append_left (by simpa using h),
      List.getElem?_eq_getElem (by simpa using h), State.validBytes_getElem, Option.getD_some,
      State.bufByte, State.setBuf_freeCount]
  · rw [if_pos (by omega), List.getElem?_append_right (by simpa using h), State.validBytes_length,
      List.getElem?_take_of_lt (by omega), List.getElem?_eq_getElem (by omega), Option.getD_some,
      Option.getD_some]

/-- What FLUSH leaves in the fields it does not compute (R83). -/
theorem State.flushData_frame (data : List Byte) :
    (s.flushData v data).valid = s.valid ∧ (s.flushData v data).port = s.port ∧
      (s.flushData v data).responses = s.responses ∧
      (s.flushData v data).freeCount = s.freeCount + 1 := by
  obtain ⟨-, -, -, h1, h2, h3, h4⟩ := s.primeOnce_frame v
  simp [State.flushData, State.absorbRest, State.topOff, h1, h2, h3, h4]

/-- The bytes of the payload that FLUSH keeps are the tail of the valid bytes followed by the payload
(R83 step 5). -/
theorem State.flush_tail {data : List Byte} (hp : s.pending.toNat < 96)
    (hl : 96 ≤ s.pending.toNat + data.length) :
    data.drop (96 - s.pending.toNat + 96 * ((data.length - (96 - s.pending.toNat)) / 96)) =
      messageTail (s.validBytes ++ data) := by
  have hx : 96 * ((s.pending.toNat + data.length) / 96) = s.pending.toNat +
      (96 - s.pending.toNat + 96 * ((data.length - (96 - s.pending.toNat)) / 96)) := by omega
  rw [messageTail, List.length_append, State.validBytes_length, hx]
  conv_rhs => rw [← List.drop_drop, ← s.validBytes_length, List.drop_left]
  rw [State.validBytes_length]

/-- FLUSH's lanes: over the valid bytes followed by the payload, PRIME at the first block of the context
and one BLOCKMIX for each whole block (R83). -/
theorem State.flushData_h {data : List Byte} (hp : s.pending.toNat < 96)
    (hl : 96 ≤ s.pending.toNat + data.length) :
    (s.flushData v data).h =
      mixBlocks v (if s.totalLength.toNat < 96 then prime v s.h[0] s.h[1] else s.h)
        (s.validBytes ++ data) 0 ((s.pending.toNat + data.length) / 96) := by
  obtain ⟨-, hq, -, -⟩ := s.primeOnce_frame v
  have hd : data = (s.validBytes ++ data).drop s.pending.toNat := by
    rw [← s.validBytes_length, List.drop_left]
  rw [State.flushData, State.absorbRest]
  simp only [State.freshen_h, State.setTotalLength_h, State.setPending_h, State.setBuf_h,
    State.setLanes_h]
  rw [State.topOff_h v _ (by rw [hq]; exact hp) (by rw [hq]; exact hl), State.primeOnce_h,
    State.primeOnce_validBytes,
    show (s.pending.toNat + data.length) / 96 = (data.length - (96 - s.pending.toNat)) / 96 + 1 by
      omega, mixBlocks_succ]
  generalize blockmix v _ _ = x
  generalize (data.length - (96 - s.pending.toNat)) / 96 = n
  conv_lhs => rw [hd, mixBlocks_drop]
  rw [show s.pending.toNat + (96 - s.pending.toNat) = 0 + 96 by omega]

/-- FLUSH's `pending` (R83 step 5). -/
theorem State.flushData_pending {data : List Byte} (hp : s.pending.toNat < 96)
    (hl : 96 ≤ s.pending.toNat + data.length) :
    (s.flushData v data).pending.toNat = (s.pending.toNat + data.length) % 96 := by
  rw [State.flushData, State.absorbRest]
  simp only [State.freshen_pending, State.setTotalLength_pending, State.setPending_pending,
    BitVec.toNat_ofNat, List.length_drop]
  omega

/-- FLUSH's `totalLength` (R83 step 6). -/
theorem State.flushData_totalLength {data : List Byte}
    (ho : s.totalLength.toNat + data.length ≤ 2 ^ 64 - 1) :
    (s.flushData v data).totalLength.toNat = s.totalLength.toNat + data.length := by
  obtain ⟨-, -, ht, -⟩ := s.primeOnce_frame v
  obtain ⟨-, -, ht2, -⟩ := (s.primeOnce v).topOff_frame v data
  rw [State.flushData, State.absorbRest]
  simp only [State.freshen_totalLength, State.setTotalLength_totalLength, BitVec.toNat_ofNat,
    ht2, ht]
  omega

/-- FLUSH's buffer (R83 step 5). -/
theorem State.flushData_buf {data : List Byte} (hp : s.pending.toNat < 96)
    (hl : 96 ≤ s.pending.toNat + data.length) :
    let tail := messageTail (s.validBytes ++ data)
    (s.flushData v data).buf =
      ((s.buf.writeBytes s.pending.toNat (data.take (96 - s.pending.toNat))).writeBytes 0
        tail).keepBelow tail.length := by
  obtain ⟨hb, hq, -, -⟩ := s.primeOnce_frame v
  obtain ⟨hb2, -⟩ := (s.primeOnce v).topOff_frame v data
  rw [State.flushData, State.absorbRest]
  simp only [State.freshen_buf, State.setTotalLength_buf, State.setPending_buf, State.setBuf_buf,
    hb2, hb, hq]
  rw [s.flush_tail hp hl]

/-- FLUSH keeps the remainder in the buffer (R83 step 5). -/
theorem State.flushData_read {data : List Byte} (hp : s.pending.toNat < 96)
    (hl : 96 ≤ s.pending.toNat + data.length) {a : Nat}
    (ha : a < (s.pending.toNat + data.length) % 96) :
    (s.flushData v data).buf.read a = (messageTail (s.validBytes ++ data))[a]? := by
  have hlen : a < (messageTail (s.validBytes ++ data)).length := by
    rw [messageTail_length, List.length_append, State.validBytes_length]; exact ha
  rw [s.flushData_buf v hp hl, List.getElem?_eq_getElem hlen]
  apply Memory.read_keepBelow_of_some hlen
  rw [Memory.read_writeBytes, if_pos (by omega), Nat.sub_zero, List.getElem?_eq_getElem hlen]

/-- FLUSH's valid bytes are the remainder (R83). -/
theorem State.flushData_validBytes {data : List Byte} (hp : s.pending.toNat < 96)
    (hl : 96 ≤ s.pending.toNat + data.length) :
    (s.flushData v data).validBytes = messageTail (s.validBytes ++ data) := by
  have hq := s.flushData_pending v hp hl
  apply State.validBytes_eq
  · rw [hq, messageTail_length, List.length_append, State.validBytes_length]
  · intro j hj
    exact s.flushData_read v hp hl (hq ▸ hj)

/-- FLUSH keeps the canonical form (R83). -/
theorem State.flushData_wf {data : List Byte} (hm : Memory.wf s.buf) (hp : s.pending.toNat < 96)
    (hl : 96 ≤ s.pending.toNat + data.length) : Memory.wf (s.flushData v data).buf := by
  rw [s.flushData_buf v hp hl]
  apply Memory.keepBelow_wf
  apply Memory.writeBytes_wf
  · exact Memory.writeBytes_wf hm (by rw [List.length_take]; omega)
  · rw [messageTail_length]
    omega

/-! ### UPDATE's effect -/

theorem State.absorb_buffer {data : List Byte} (h : s.pending.toNat + data.length < 96) :
    s.absorb v data = s.bufferData data := if_pos h

theorem State.absorb_flush {data : List Byte} (h : 96 ≤ s.pending.toNat + data.length) :
    s.absorb v data = s.flushData v data := if_neg (Nat.not_lt.mpr h)

/-- UPDATE leaves the flag, the port and the responses alone (R81). -/
theorem State.absorb_frame (data : List Byte) :
    (s.absorb v data).valid = s.valid ∧ (s.absorb v data).port = s.port ∧
      (s.absorb v data).responses = s.responses := by
  rw [State.absorb]
  split_ifs
  · exact ⟨rfl, rfl, rfl⟩
  · obtain ⟨h1, h2, h3, -⟩ := s.flushData_frame v data
    exact ⟨h1, h2, h3⟩

/-! ### A response takes no part in UPDATE's effect (R104) -/

theorem State.primeOnce_answer (r : List Byte) :
    (s.answer r).primeOnce v = (s.primeOnce v).answer r := by
  rw [State.primeOnce, State.primeOnce, show primed (s.answer r) = primed s from rfl]
  split_ifs
  · rfl
  · rw [State.answer_h]
    generalize prime v s.h[0] s.h[1] = x
    rfl

theorem State.topOff_answer (r data : List Byte) :
    (s.answer r).topOff v data = (s.topOff v data).answer r := by
  simp only [State.topOff, State.answer_buf, State.answer_pending, State.setBuf_h, State.answer_h]
  have h : ∀ m, ((s.answer r).setBuf m).bufBlock = (s.setBuf m).bufBlock := fun _ => rfl
  rw [h]
  generalize blockmix v s.h _ = x
  rfl

theorem State.absorbRest_answer (r data : List Byte) (off : Nat) :
    (s.answer r).absorbRest v data off = (s.absorbRest v data off).answer r := by
  simp only [State.absorbRest, State.answer_h]
  generalize mixBlocks v s.h data off _ = x
  rfl

/-- Answering before UPDATE's effect or after it comes to the same. -/
theorem State.absorb_answer (r data : List Byte) :
    (s.answer r).absorb v data = (s.absorb v data).answer r := by
  rw [State.absorb, State.absorb, State.answer_pending]
  split_ifs
  · rfl
  · rw [State.flushData, State.flushData, State.primeOnce_answer, State.topOff_answer,
      State.absorbRest_answer, State.answer_pending]

end Sys2Proof.Machine
end

