-- ==== Sys2Proof/Laws/PerInstr.lean ====
section
/-! SUPPORT. What holds of every instruction as syntax, one lemma for each constructor of `Instr`: the
shape of its frame (30_encoding.md rules R41 to R45). -/

namespace Sys2Proof.Laws.FrameShape

open Sys2Proof Sys2Proof.Machine

/-- The length of a command's frame (30_encoding.md R42 to R45). -/
def frameLength : Instr → Nat
  | .init key => 4 + key.length
  | .update data => 12 + data.length
  | .final => 4
  | .oneshot key message => 12 + key.length + message.length

/-- OPC, the first byte of a frame (30_encoding.md R41). -/
def opcodeByte : Instr → Byte
  | .init _ => 0x01
  | .update _ => 0x02
  | .final => 0x03
  | .oneshot _ _ => 0x04

/-- KLEN as a number (30_encoding.md R41). -/
def keyLength : Instr → Nat
  | .init key => key.length
  | .update _ => 0
  | .final => 0
  | .oneshot key _ => key.length

/-- A well-formed command's frame has the length its fields imply and begins with its opcode, its KLEN
and zero RSV. -/
def Statement (i : Instr) : Prop :=
  i.WellFormed → (encode i).length = frameLength i ∧
    (encode i).take 4 = [opcodeByte i, BitVec.ofNat 8 (keyLength i), 0, 0]

/-- The four bytes of a command word whose RSV is zero. -/
theorem commandWordBytes_eq {opc k : Nat} (ho : opc < 256) (hk : k < 32) :
    commandWordBytes opc k = [BitVec.ofNat 8 opc, BitVec.ofNat 8 k, 0, 0] := by
  have h1 : (opc + 256 * k) / 256 = k := by omega
  have h2 : k / 256 = 0 := by omega
  have h0 : BitVec.ofNat 8 (opc + 256 * k) = BitVec.ofNat 8 opc := by
    apply BitVec.eq_of_toNat_eq
    simp only [BitVec.toNat_ofNat]
    omega
  simp only [commandWordBytes, leBytes, h1, h2, h0, Nat.zero_div]
  rfl

theorem init (key : List Byte) : Statement (.init key) := by
  intro h
  have hk : key.length ≤ 16 := of_decide_eq_true h
  rw [encode, commandWordBytes_eq (by omega) (by omega)]
  simp [frameLength, opcodeByte, keyLength]
  omega

theorem update (data : List Byte) : Statement (.update data) := by
  intro _
  rw [encode, commandWordBytes_eq (by omega) (by omega)]
  simp [frameLength, opcodeByte, keyLength, lenBytes]
  omega

theorem final : Statement .final := by
  intro _
  rw [encode, commandWordBytes_eq (by omega) (by omega)]
  simp [frameLength, opcodeByte, keyLength]

theorem oneshot (key message : List Byte) : Statement (.oneshot key message) := by
  intro h
  have hk : key.length ≤ 16 := of_decide_eq_true (Bool.and_eq_true_iff.mp h).1
  rw [encode, commandWordBytes_eq (by omega) (by omega)]
  simp [frameLength, opcodeByte, keyLength, lenBytes]
  omega

end Sys2Proof.Laws.FrameShape
end

