-- ==== Sys2Proof/Tests/Slice0.lean ====
section
/-! SUPPORT. Tests. Expected values come from 95_test_vectors.md and from the worked examples of the
rules; the last part shows that every statement's hypotheses can be met, at the ends of their ranges. -/

namespace Sys2Proof.Tests

set_option Elab.async false

open Sys2Proof Sys2Proof.Machine Sys2Proof.Config Sys2Proof.Safety

/-! ### Helpers -/

/-- `tmsg(n)` of 95_test_vectors.md V0. -/
def tmsg (n : Nat) : List Byte := (List.range n).map fun i => BitVec.ofNat 8 (37 * i + 11)

/-- The buffer whose first bytes are `bs`. -/
def cells (bs : List Byte) : Memory := (List.range bs.length).zip bs

/-- A context of seeds (1, 2) in raw-seed form with `total` bytes supplied and `bs` in the buffer. -/
def ctx (total : Nat) (bs : List Byte) : State :=
  { State.reset with
    h := rawLanes 1 2
    buf := cells bs
    pending := BitVec.ofNat 7 bs.length
    totalLength := BitVec.ofNat 64 total
    valid := true }

/-- A state with these frames offered. -/
def offering (s : State) (frames : List (List Byte)) : State :=
  { s with port := frames.map PortEvent.command }

/-- What is seen of an outcome that is a next state. -/
def seen {α : Type} (f : State → α) : Host.Outcome State Fault Refusal → Option α
  | .next t => some (f t)
  | _ => none

/-- The block `e_k`: lane `k` is 1 and the others 0. -/
def unitBlock (k : Nat) : Block := Vector.ofFn fun j => if j.val = 8 * k then 1 else 0

/-- The frame of `Init(1, 2)` (95_test_vectors.md F1). -/
def frameInit12 : List Byte := [0x01, 0x10, 0, 0, 1, 0, 0, 0, 0, 0, 0, 0, 2, 0, 0, 0, 0, 0, 0, 0]

/-- The lanes after 100 bytes (95_test_vectors.md P2 after 4). -/
def lanesP2 : Lanes :=
  #v[0x6DD47B4524A62088, 0x1735C9972DBE6468, 0x3416F79A15CE18E3, 0x557294C327BD7E89,
     0x1CB16A408660FD4E, 0xB9A8FD7D43D08E1F, 0x7E6DB6BCA444656C, 0xD9AC9780BECB9F85,
     0x5625A3732334A15A, 0x6A140BEC55196C07, 0x2BC2AF554699B41B, 0x4165D434268E81B7]

/-! ### Well-formedness refuses -/

theorem test_wellformed_refuses_init_key : (Instr.init (List.replicate 17 0)).wellFormed = false := by
  decide

theorem test_wellformed_refuses_oneshot_key :
    (Instr.oneshot (List.replicate 17 0) []).wellFormed = false := by decide

theorem test_wellformed_refuses_update_payload (data : List Byte) (h : data.length = 2 ^ 64) :
    (Instr.update data).wellFormed = false := by
  rw [Instr.wellFormed, payloadFits, h]
  decide

theorem test_wellformed_refuses_oneshot_payload (data : List Byte) (h : data.length = 2 ^ 64) :
    (Instr.oneshot [] data).wellFormed = false := by
  rw [Instr.wellFormed, payloadFits, h]
  decide

/-- There is such a payload. -/
theorem test_payload_too_long : (List.replicate (2 ^ 64) (0 : Byte)).length = 2 ^ 64 :=
  List.length_replicate

/-! ### Decoding, from frames written out by hand (95_test_vectors.md F and X, 30_encoding.md R53) -/

theorem test_decode_init : decode frameInit12 = .ok (initSeeds 1 2) := by decide +kernel

theorem test_decode_init_short_keys :
    decode [0x01, 0, 0, 0] = .ok (.init []) ∧
    decode [0x01, 0x02, 0, 0, 0x01, 0x02] = .ok (.init [0x01, 0x02]) := by decide +kernel

theorem test_decode_update :
    decode [0x02, 0, 0, 0, 3, 0, 0, 0, 0, 0, 0, 0, 0x61, 0x62, 0x63] =
      .ok (.update [0x61, 0x62, 0x63]) := by decide +kernel

theorem test_decode_final : decode [0x03, 0, 0, 0] = .ok .final := by decide +kernel

theorem test_decode_oneshot :
    decode [0x04, 0x02, 0, 0, 0x01, 0x02, 1, 0, 0, 0, 0, 0, 0, 0, 0xAB] =
      .ok (.oneshot [0x01, 0x02] [0xAB]) := by decide +kernel

theorem test_decode_illegal :
    decode [0x00, 0, 0, 0] = .error .illegalCmd ∧ decode [0x05, 0, 0, 0] = .error .illegalCmd ∧
    decode [0x03, 0x20, 0, 0] = .error .illegalCmd ∧
    decode [0x03, 0, 0, 0x80] = .error .illegalCmd ∧
    decode [0x03, 0x01, 0, 0] = .error .illegalCmd ∧
    decode [0x02, 0x01, 0, 0, 0x05] = .error .illegalCmd := by decide +kernel

theorem test_decode_key_too_long :
    decode [0x01, 0x11, 0, 0] = .error .keyTooLong ∧
    decode [0x04, 0x1F, 0, 0] = .error .keyTooLong := by decide +kernel

theorem test_decode_bad_frame :
    decode [] = .error .badFrame ∧ decode [0x03, 0, 0] = .error .badFrame ∧
    decode [0x03, 0, 0, 0, 0] = .error .badFrame ∧ decode [0x01, 0x01, 0, 0] = .error .badFrame ∧
    decode [0x02, 0, 0, 0] = .error .badFrame ∧
    decode [0x02, 0, 0, 0, 5, 0, 0, 0, 0, 0, 0, 0, 0x61, 0x62, 0x63] = .error .badFrame ∧
    decode [0x02, 0, 0, 0, 0xFF, 0xFF, 0xFF, 0xFF, 0xFF, 0xFF, 0xFF, 0xFF] = .error .badFrame ∧
    decode [0x04, 0x01, 0, 0, 0, 0, 0, 0, 0, 0, 0, 0] = .error .badFrame := by decide +kernel

/-- The words of spec/opcode_table.json, operand bytes zero; KLEN = 16 and KLEN = 17. -/
theorem test_decode_table_words :
    decodeTableWord 32 0x00000001 = some (.init []) ∧
    decodeTableWord 32 0x00000002 = some (.update []) ∧
    decodeTableWord 32 0x00000003 = some .final ∧
    decodeTableWord 32 0x00000004 = some (.oneshot [] []) ∧
    decodeTableWord 32 0x00001001 = some (.init (List.replicate 16 0)) ∧
    decodeTableWord 32 0x00001004 = some (.oneshot (List.replicate 16 0) []) ∧
    decodeTableWord 32 0x00001101 = none ∧ decodeTableWord 32 0x00000102 = none := by
  decide +kernel

/-! ### The mixing operations (95_test_vectors.md A, B, S, G) -/

theorem test_little_endian :
    le64 [0x0B, 0x30, 0x55, 0x7A, 0x9F, 0xC4, 0xE9, 0x0E] = 0x0EE9C49F7A55300B ∧
    bytesLE64 0xD977C7618E117EAB = [0xAB, 0x7E, 0x11, 0x8E, 0x61, 0xC7, 0x77, 0xD9] ∧
    rotl64 0xFFFFFFFFFFFFFFFE 11 = 0xFFFFFFFFFFFFF7FF := by decide +kernel

/-- Vector B2. -/
theorem test_blockmix_trace :
    blockmix bheA (Vector.replicate 12 0) (unitBlock 0) =
      #v[0xB7EDFB4AF69263D4, 0xB7EDFB4AF69263D5, 0x0000000020000001, 0x0000020020000041,
         0x00010210200020C1, 0x18210230620420C5, 0x09A21211642CE1CD, 0x8C3E2BB0506EA3E1,
         0x805FDAEDD2EDD6FE, 0xF6B6AC06ADADF913, 0x0A3F575DFBAEAFC5, 0xF7E800BF7EB1046B] := by
  decide +kernel

/-- Vectors B4 and B7. -/
theorem test_blockmix_real_block :
    blockmix bheA (prime bheA 1 2) (blockAt (tmsg 96) 0) = lanesP2 ∧
    unblockmix bheA lanesP2 (blockAt (tmsg 96) 0) = prime bheA 1 2 := by decide +kernel

/-- Vector B5. -/
theorem test_blockmix_wraps :
    blockmix bheA (Vector.replicate 12 (BitVec.allOnes 64)) (Vector.replicate 96 0xFF) =
      ((Vector.replicate 12 (BitVec.allOnes 64)).set 0 0x800).set 1 0x800 := by decide +kernel

/-- Vectors S3 and S5. -/
theorem test_shortpath_steps :
    chunkmix bheA (BitVec.allOnes 64, BitVec.allOnes 64) (BitVec.allOnes 64) (BitVec.allOnes 64) =
      (0xBBAF6B0ADE0F211A, 0x1E991D0FAA386C0D) ∧
    shortend bheA (1, 2) = (0xDE810A1E05BEE8EA, 0xD1CD9557D6E1FFCE) := by decide +kernel

/-- Vectors S6 (r = 7, 8, 9) and S7. -/
theorem test_tailwords :
    tailwords ((tmsg 23).drop 16) 23 = (0x003914EFCAA5805B, 0x1700000000000000) ∧
    tailwords ((tmsg 24).drop 16) 24 = (0x5E3914EFCAA5805B, 0x1800000000000000) ∧
    tailwords ((tmsg 25).drop 16) 25 = (0x5E3914EFCAA5805B, 0x1900000000000083) ∧
    tailwords (List.replicate 15 0xFF) 95 = (0xFFFFFFFFFFFFFFFF, 0x5FFFFFFFFFFFFFFF) := by
  decide +kernel

/-- Vector G1 at n = 95, 97 and 191. -/
theorem test_digest_boundaries :
    digest bheA (tmsg 95) 1 2 = ⟨0x8F8299108F9484E3, 0x24D986F13A66A9C3⟩ ∧
    digest bheA (tmsg 97) 1 2 = ⟨0xFE5D5B6D2B9998B5, 0x1524DFADFD19E787⟩ ∧
    digest bheA (tmsg 191) 1 2 = ⟨0x804A4A9FFECD7326, 0x7AA5DEC9D11E6A6D⟩ := by decide +kernel

/-- Vector E1 with fragments of 95, 1 and 204 bytes. -/
theorem test_streaming_300 :
    ((((State.reset.openContext 1 2).absorb bheA ((tmsg 300).take 95)).absorb bheA
      (slice (tmsg 300) 95 1)).absorb bheA ((tmsg 300).drop 96)).finalDigest bheA =
      ⟨0x57C8EA8D06A05111, 0xC5B072C199F83698⟩ := by decide +kernel

/-! ### One step of each command -/

/-- 95_test_vectors.md P3 step 9. -/
theorem test_init_seeds :
    seen (fun t => ({ t with buf := [] } : State))
      (step (offering (ctx 100 [0xEB]) [[0x01, 0x02, 0, 0, 0x01, 0x02]])) =
      some { ctx 0 [] with h := rawLanes 0x201 0, responses := [[0x00]] } := by decide +kernel

/-- 95_test_vectors.md P3 step 3: a live context survives an over-long key. -/
theorem test_init_long_key :
    seen (fun t => (t.totalLength, t.valid, t.responses))
      (step (offering (ctx 3 [1, 2, 3]) [[0x01, 0x11, 0, 0]])) = some (3, true, [[0x02]]) := by
  decide +kernel

/-- 95_test_vectors.md P2 step 4: the first block primes, mixes and leaves four bytes. -/
theorem test_update_flushes :
    seen (fun t => (t.h, t.pending, t.totalLength, t.validBytes))
      (exec (.update ((tmsg 100).drop 50)) (ctx 50 (tmsg 50))) =
      some (lanesP2, 4, 100, [0xEB, 0x10, 0x35, 0x5A]) := by decide +kernel

/-- 95_test_vectors.md X26 and X27. -/
theorem test_update_overflow :
    seen (fun t => (t.pending, t.responses))
      (exec (.update [0, 0]) (ctx (2 ^ 64 - 2) (List.replicate 62 0))) = some (62, [[0x05]]) ∧
    seen (fun t => (t.pending, t.responses))
      (exec (.update [0]) (ctx (2 ^ 64 - 2) (List.replicate 62 0))) = some (63, [[0x00]]) := by
  decide +kernel

/-- 95_test_vectors.md P2 step 5. -/
theorem test_final_block_path :
    seen State.responses
      (exec .final { ctx 100 [0xEB, 0x10, 0x35, 0x5A] with h := lanesP2 }) =
      some [[0x00, 0x23, 0xB3, 0x49, 0xF6, 0xF7, 0x91, 0x90, 0x14, 0x84, 0x80, 0x8E, 0xFC, 0xB3,
        0xC9, 0xE7, 0xF9]] := by decide +kernel

/-- 95_test_vectors.md P1 step 3, and P3 step 1. -/
theorem test_final_short_path :
    seen State.responses (exec .final (ctx 3 [0x61, 0x62, 0x63])) =
      some [[0x00, 0xBE, 0xDA, 0x59, 0xD9, 0x51, 0x8A, 0xD1, 0xC9, 0xF4, 0x88, 0x4F, 0xFF, 0xA6,
        0xB6, 0x88, 0x18]] ∧
    seen State.responses (exec .final State.reset) = some [[0x04]] := by decide +kernel

/-- 43_oneshot_and_laws.md R101, worked, from reset. -/
theorem test_oneshot_empty :
    seen (fun t => (t.valid, t.responses)) (exec (oneshotSeeds [] 1 2) State.reset) =
      some (false, [[0x00, 0xAB, 0x7E, 0x11, 0x8E, 0x61, 0xC7, 0x77, 0xD9, 0x22, 0x33, 0x89, 0x94,
        0x78, 0xF0, 0x55, 0xA6]]) := by decide +kernel

/-- 95_test_vectors.md P4 step 5: the context is as it was. -/
theorem test_oneshot_keeps_context :
    seen (fun t => ({ t with responses := [] }, t.responses))
      (exec (oneshotSeeds (tmsg 97) 1 2) (ctx 3 [1, 2, 3])) =
      some (ctx 3 [1, 2, 3], [[0x00, 0xB5, 0x98, 0x99, 0x2B, 0x6D, 0x5B, 0x5D, 0xFE, 0x87, 0xE7,
        0x19, 0xFD, 0xAD, 0xDF, 0x24, 0x15]]) := by decide +kernel

/-- 70_reset_and_hazards.md R132: reset gives no response, between commands or in place of one. -/
theorem test_reset :
    seen (fun t => (t.valid, t.responses))
      (step { ctx 3 [1, 2, 3] with port := [.reset] }) = some (false, []) ∧
    seen (fun t => (t.valid, t.responses))
      (step { ctx 3 [1, 2, 3] with port := [.resetDuring [0x03, 0, 0, 0]] }) =
      some (false, []) := by decide +kernel

/-! ### Witnesses: the hypotheses of the statements can be met -/

theorem witness_DecodeOfEncode :
    (Instr.init (List.replicate 16 0xFF)).WellFormed ∧ (Instr.update []).WellFormed ∧
    Instr.final.WellFormed ∧ (Instr.oneshot (List.replicate 16 0xFF) [0x61]).WellFormed := by decide

theorem witness_EncodeOfDecode : decode frameInit12 = .ok (initSeeds 1 2) := test_decode_init

theorem witness_IllegalCommandCause :
    decode [0x00, 0, 0, 0] = .error .illegalCmd ∧
    (offering State.reset [[0x00, 0, 0, 0]]).port = .command [0x00, 0, 0, 0] :: [] :=
  ⟨test_decode_illegal.1, rfl⟩

theorem witness_KeyTooLongCause :
    decode [0x01, 0x11, 0, 0] = .error .keyTooLong ∧
    (offering State.reset [[0x01, 0x11, 0, 0]]).port = .command [0x01, 0x11, 0, 0] :: [] :=
  ⟨test_decode_key_too_long.1, rfl⟩

theorem witness_BadFrameCause :
    decode [] = .error .badFrame ∧ (offering State.reset [[]]).port = .command [] :: [] :=
  ⟨test_decode_bad_frame.1, rfl⟩

theorem witness_OpcodeRowsDecide :
    4 ≤ [(0x00 : Byte), 0, 0, 0].length ∧ decode [0x03, 0, 0, 0] = .ok .final :=
  ⟨by decide, test_decode_final⟩

theorem witness_SeedsOfKeys :
    ([] : List Byte).length ≤ 16 ∧ ([] : List Byte).length + 16 ≤ 16 ∧
    (List.replicate 16 (0xFF : Byte)).length ≤ 16 ∧
    (List.replicate 16 (0xFF : Byte)).length + 0 ≤ 16 := by decide

theorem witness_FetchWordRuns :
    decodeTableWord 32 0x00000003 = some .final ∧
    decodeTableWord 32 0x00001001 = some (.init (List.replicate 16 0)) :=
  ⟨test_decode_table_words.2.2.1, test_decode_table_words.2.2.2.2.1⟩

theorem witness_LittleEndianWords :
    (bytesLE64 0x0EE9C49F7A55300B).length = 8 ∧ 0 < 12 ∧ 11 < 12 := by decide +kernel

theorem witness_RotateMovesEachBit : 0 ≤ 63 ∧ 1 ≤ 63 ∧ 63 ≤ 63 ∧ 0 < 64 ∧ 63 < 64 := by decide

theorem witness_StepWritesThreeLanes :
    (5 : Fin 12) ≠ 11 ∧ (5 : Fin 12) ≠ 11 + 1 ∧ (5 : Fin 12) ≠ 11 + 2 := by decide

theorem witness_BlockmixReversible : bheA.DistinctWiring := by decide

theorem witness_PrimeSpreadsSeeds :
    bheA.kg[0].toNat % 2 = 1 ∧ bheA.kg[3].toNat % 2 = 1 ∧ prime bheA 1 2 = prime bheA 1 2 := by
  decide +kernel

theorem witness_ChunkmixReversible : bheA.ka.toNat % 2 = 1 ∧ bheA.kb.toNat % 2 = 1 := by
  decide +kernel

theorem witness_TailwordBytes :
    ([] : List Byte).length ≤ 15 ∧ 80 ≤ 95 ∧ 80 % 16 = ([] : List Byte).length ∧
    (List.replicate 15 (0xFF : Byte)).length ≤ 15 ∧
    95 % 16 = (List.replicate 15 (0xFF : Byte)).length ∧ 0 < 8 ∧ 7 < 8 := by decide

theorem witness_ShortmixRunsByChunks : (tmsg 0).length < 96 ∧ (tmsg 95).length < 96 := by
  decide +kernel

theorem witness_DigestRunsByBlocks :
    (tmsg 95).length < 96 ∧ 96 ≤ (tmsg 191).length ∧
    (∀ k < 1, (blockAt (tmsg 191) (96 * k)).toList = slice (tmsg 191) (96 * k) 96) ∧
    (finalBlock (messageTail (tmsg 191))).toList =
      slice (tmsg 191) 96 95 ++ List.replicate 0 0 ++ [95] := by decide +kernel

theorem witness_FinalBlockEmbedsTail :
    (tmsg 0).length ≤ 95 ∧ (tmsg 95).length ≤ 95 ∧
    finalBlock (tmsg 95) = finalBlock ((tmsg 191).take 95) := by decide +kernel

/-- For InitOpensContext, InitForgetsTheOldContext, FinalAfterInit and OneshotAnswersDigest. -/
theorem witness_key_fits :
    ([] : List Byte).length ≤ 16 ∧ (List.replicate 16 (0xFF : Byte)).length ≤ 16 := by decide

theorem witness_UpdateBuffers :
    let s := ctx 50 (tmsg 50)
    s.valid = true ∧ s.totalLength.toNat + (tmsg 45).length ≤ 2 ^ 64 - 1 ∧
    s.pending.toNat + (tmsg 45).length < 96 := by decide +kernel

/-- With and without priming, at the smallest payloads that flush. -/
theorem witness_UpdateFlushes :
    let s := ctx 50 (tmsg 50)
    let t := ctx 191 (tmsg 95)
    (s.valid = true ∧ s.totalLength.toNat + (tmsg 46).length ≤ 2 ^ 64 - 1 ∧
      s.pending.toNat < 96 ∧ 96 ≤ s.pending.toNat + (tmsg 46).length) ∧
    (t.valid = true ∧ t.totalLength.toNat + (tmsg 1).length ≤ 2 ^ 64 - 1 ∧
      t.pending.toNat < 96 ∧ 96 ≤ t.pending.toNat + (tmsg 1).length) := by decide +kernel

theorem witness_EmptyUpdateIsNoOp :
    (ctx 95 (tmsg 95)).valid = true ∧ (ctx 95 (tmsg 95)).pending.toNat < 96 ∧
    State.reset.valid = false := by decide +kernel

theorem witness_FinalTakesShortPath :
    (ctx 95 (tmsg 95)).valid = true ∧ (ctx 95 (tmsg 95)).totalLength.toNat < 96 := by
  decide +kernel

/-- At both ends of `pending`. -/
theorem witness_FinalMixesFourTimes :
    let s := ctx 96 []
    let t := ctx 191 (tmsg 95)
    (s.valid = true ∧ 96 ≤ s.totalLength.toNat ∧ s.pending.toNat < 96 ∧
      (Vector.replicate 96 (0 : Byte)).toList =
        s.validBytes ++ List.replicate (95 - s.pending.toNat) 0 ++
          [BitVec.ofNat 8 s.pending.toNat]) ∧
    (t.valid = true ∧ 96 ≤ t.totalLength.toNat ∧ t.pending.toNat < 96 ∧
      (finalBlock (tmsg 95)).toList =
        t.validBytes ++ List.replicate (95 - t.pending.toNat) 0 ++
          [BitVec.ofNat 8 t.pending.toNat]) := by decide +kernel

theorem witness_FinalIsNonDestructive : (ctx 100 (tmsg 4)).valid = true := by decide

theorem witness_LongKeyIsRefused : 16 < (List.replicate 17 (0 : Byte)).length := by decide

theorem witness_NoContextRefusals :
    State.reset.valid = false ∧ (∃ t, exec (.init []) State.reset = .next t) ∧
    ∃ t, exec (.oneshot [] []) State.reset = .next t :=
  ⟨rfl, ⟨_, exec_init_ok (by decide) _⟩, ⟨_, exec_oneshot_ok (by decide) _ _⟩⟩

theorem witness_LengthOverflowIsRefused :
    let s := ctx (2 ^ 64 - 2) (List.replicate 62 0)
    s.valid = true ∧ 2 ^ 64 - 1 < s.totalLength.toNat + [(0 : Byte), 0].length ∧
    s.totalLength.toNat + [(0 : Byte)].length ≤ 2 ^ 64 - 1 := by decide +kernel

theorem witness_StepRunsDecodedCommand :
    (offering State.reset [[0x03, 0, 0, 0]]).port = .command [0x03, 0, 0, 0] :: [] ∧
    decode [0x03, 0, 0, 0] = .ok .final := ⟨rfl, test_decode_final⟩

theorem witness_StepAnswersRejection :
    (offering State.reset [[0x03, 0, 0]]).port = .command [0x03, 0, 0] :: [] ∧
    decode [0x03, 0, 0] = .error .badFrame := ⟨rfl, test_decode_bad_frame.2.1⟩

/-- For RefusalsChangeNothing and ResponseForms. -/
theorem witness_frame_at_port :
    (offering (ctx 3 [1, 2, 3]) [[0x03, 0, 0, 0], []]).port =
      .command [0x03, 0, 0, 0] :: [.command []] := rfl

theorem witness_EarlierCauseWins :
    let s := ctx (2 ^ 64 - 1) (List.replicate 63 0)
    let t := { s with valid := false }
    (offering s [[0x02, 0x01, 0, 0, 0x05]]).port = .command [0x02, 0x01, 0, 0, 0x05] :: [] ∧
    (offering s [[0x01, 0x11, 0, 0]]).port = .command [0x01, 0x11, 0, 0] :: [] ∧
    (offering t [[0x02, 0, 0, 0, 0x01, 0]]).port = .command [0x02, 0, 0, 0, 0x01, 0] :: [] ∧
    (offering t [encode (.update [0])]).port = .command (encode (.update [0])) :: [] ∧
    [(0 : Byte)].length < 2 ^ 64 ∧ 2 ^ 64 - 1 < t.totalLength.toNat + [(0 : Byte)].length ∧
    t.valid = false := by decide +kernel

/-- A context where one is needed, at the last byte that fits; and no context for INIT and ONESHOT. -/
theorem witness_TotalInsideTheContract :
    let f : List Byte := [0x02, 0, 0, 0, 1, 0, 0, 0, 0, 0, 0, 0, 0xAB]
    let s := offering (ctx (2 ^ 64 - 2) (List.replicate 62 0)) [f]
    s.port = .command f :: [] ∧ decode f = .ok (.update [0xAB]) ∧ s.valid = true ∧
    s.totalLength.toNat + [(0xAB : Byte)].length < 2 ^ 64 ∧
    decode [0x01, 0, 0, 0] = .ok (.init []) ∧
    decode [0x04, 0, 0, 0, 0, 0, 0, 0, 0, 0, 0, 0] = .ok (.oneshot [] []) := by decide +kernel

theorem witness_IdleHoldsState : (ctx 3 [1, 2, 3]).port = [] := rfl

theorem witness_ResetEndsContext :
    let s := { ctx 3 [1, 2, 3] with port := [.reset] }
    let t := { ctx 3 [1, 2, 3] with port := [.resetDuring [0x03]] }
    s.port = .reset :: [] ∧ ∃ frame, t.port = .resetDuring frame :: [] := ⟨rfl, [0x03], rfl⟩

/-- A reset clears the flag, and an INIT sets it. -/
theorem witness_OnlyInitAndResetMoveValid :
    (∃ t, step { ctx 3 [1, 2, 3] with port := [.reset] } = .next t ∧ t.valid ≠ true) ∧
    ∃ t, step (offering State.reset [[0x01, 0, 0, 0]]) = .next t ∧ t.valid ≠ false :=
  ⟨⟨_, step_reset rfl, by decide⟩,
   ⟨_, (step_command rfl test_decode_init_short_keys.1).trans (exec_init_ok (by decide) _),
     by decide⟩⟩

/-- A context with a byte in the buffer keeps the invariant, and a command stands at its port. -/
theorem witness_inv : Inv (offering (ctx 1 [0xAB]) [[0x03, 0, 0, 0]]) where
  bufForm := by decide
  pendingBound := by decide
  counters := by decide
  validListed := by decide
  rawForm := by decide

theorem witness_StepKeepsInvariant :
    Inv (offering (ctx 1 [0xAB]) [[0x03, 0, 0, 0]]) ∧
    ∃ t, step (offering (ctx 1 [0xAB]) [[0x03, 0, 0, 0]]) = .next t :=
  ⟨witness_inv, _, (step_command rfl test_decode_final).trans (exec_final_ok rfl)⟩

/-- A stream of one byte, and no stream. -/
theorem witness_EngineTracksStream :
    (Tracks bheA (some ⟨1, 2, [0xAB]⟩) (offering (ctx 1 [0xAB]) [[0x03, 0, 0, 0]]) ∧
      (offering (ctx 1 [0xAB]) [[0x03, 0, 0, 0]]).port = .command [0x03, 0, 0, 0] :: []) ∧
    Tracks bheA none { State.reset with port := [.reset] } :=
  ⟨⟨⟨by decide, ⟨rfl, by decide, by decide, by decide, by decide, by decide⟩⟩, rfl⟩,
    by decide, rfl⟩

theorem witness_StreamingEquivalenceEveryVariant :
    ([[0x61], [], [0x62, 0x63]] : List (List Byte)).flatten.length < 2 ^ 64 := by decide

theorem witness_StreamingEquivalenceAtThePort :
    let fragments : List (List Byte) := [[0x61], [], [0x62, 0x63]]
    fragments.flatten.length < 2 ^ 64 ∧
    ({ ctx 3 [1, 2, 3] with
        port := (streaming fragments 1 2 ++ [oneshotSeeds fragments.flatten 1 2]).map
          fun i => PortEvent.command (encode i) } : State).port =
      (streaming fragments 1 2 ++ [oneshotSeeds fragments.flatten 1 2]).map
        (fun i => PortEvent.command (encode i)) := ⟨by decide, rfl⟩

/-- A stream of 2^64 - 2 bytes, to which one byte may still be added. -/
theorem witness_SplittingDoesNotMatter :
    let s := ctx (2 ^ 64 - 2) (List.replicate 62 0)
    Inv s ∧ s.valid = true ∧
    s.totalLength.toNat + [(0 : Byte)].length + ([] : List Byte).length ≤ 2 ^ 64 - 1 :=
  ⟨⟨by decide +kernel, by decide +kernel, by decide +kernel, by decide +kernel,
    by decide +kernel⟩, rfl, by decide +kernel⟩

/-- Two engines that differ in a stale byte and in the free values. -/
theorem witness_StaleBytesAreUnobservable :
    let s := offering (ctx 1 [0xAB]) [[0x03, 0, 0, 0]]
    let t := { s with buf := [(0, 0xAB), (7, 0xFF)], freeCount := 5 }
    Alike s t ∧ s.port = t.port ∧ s ≠ t :=
  ⟨⟨rfl, fun _ => rfl, fun _ => rfl, fun _ => rfl, fun _ => by decide +kernel⟩, rfl, by decide⟩

theorem witness_InstancesAreIndependent :
    0 ≠ 1 ∧ [State.reset, ctx 3 [1, 2, 3]][1]? = some (ctx 3 [1, 2, 3]) := by decide +kernel

end Sys2Proof.Tests
end

section
/-! The left rotation of R12 is the library's rotation; its law bit by bit gives the inverse. -/

namespace Sys2Proof.Machine

@[simp] theorem rotl64_zero (x : Word) : rotl64 x 0 = x := rfl

theorem rotl64_of_pos (x : Word) {r : Nat} (h : 1 ≤ r) :
    rotl64 x r = (x <<< r) ||| (x >>> (64 - r)) :=
  if_neg (Nat.ne_of_gt h)

theorem rotl64_eq_rotateLeft (x : Word) {r : Nat} (h : r < 64) : rotl64 x r = x.rotateLeft r := by
  rcases Nat.eq_zero_or_pos r with rfl | hpos
  · rw [rotl64_zero, BitVec.rotateLeft_def, Nat.zero_mod, BitVec.shiftLeft_zero,
      BitVec.ushiftRight_eq_zero (Nat.le_refl 64), BitVec.or_zero]
  · rw [rotl64_of_pos x hpos, BitVec.rotateLeft_def, Nat.mod_eq_of_lt h]

/-- R12: bit `k` moves to bit `(k + r) mod 64`; it wraps when `k + r` is past the top bit. -/
theorem getLsbD_rotl64 (x : Word) {r k : Nat} (hr : r < 64) (hk : k < 64) :
    (rotl64 x r).getLsbD ((k + r) % 64) = x.getLsbD k := by
  rw [rotl64_eq_rotateLeft x hr, BitVec.getLsbD_rotateLeft_of_le hr]
  rcases Nat.lt_or_ge (k + r) 64 with hstay | hwrap
  · rw [Nat.mod_eq_of_lt hstay]
    simp [hstay]
  · have hpos : (k + r) % 64 = k + r - 64 := by omega
    have hlow : k + r - 64 < r := by omega
    have hback : 64 - r + (k + r - 64) = k := by omega
    simp [hpos, hlow, hback]

/-- Two rotations that together turn the word whole times around give the word back. -/
theorem rotl64_rotl64_cancel (x : Word) {r s : Nat} (hr : r < 64) (hs : s < 64)
    (h : (r + s) % 64 = 0) : rotl64 (rotl64 x r) s = x := by
  apply BitVec.eq_of_getLsbD_eq
  intro k hk
  have hround : ((k + r) % 64 + s) % 64 = k := by omega
  calc (rotl64 (rotl64 x r) s).getLsbD k
      = (rotl64 (rotl64 x r) s).getLsbD (((k + r) % 64 + s) % 64) := by rw [hround]
    _ = (rotl64 x r).getLsbD ((k + r) % 64) := getLsbD_rotl64 _ hs (Nat.mod_lt _ (by decide))
    _ = x.getLsbD k := getLsbD_rotl64 x hr hk

theorem rotr64_rotl64 (x : Word) {r : Nat} (h : r < 64) : rotr64 (rotl64 x r) r = x :=
  rotl64_rotl64_cancel x h (Nat.mod_lt _ (by decide)) (by omega)

theorem rotl64_rotr64 (x : Word) {r : Nat} (h : r < 64) : rotl64 (rotr64 x r) r = x :=
  rotl64_rotl64_cancel x (Nat.mod_lt _ (by decide)) h (by omega)

/-- Settles O11: the formula and the move of each bit are `rotl64`'s own laws, and the inverse is two
rotations that add up to a whole turn. -/
theorem rotateMovesEachBit : Obligations.RotateMovesEachBit := by
  unfold Obligations.RotateMovesEachBit
  refine ⟨fun x r hr => ?_, by decide, by decide⟩
  have hlt : r < 64 := Nat.lt_succ_of_le hr
  exact ⟨rotl64_of_pos x, fun _ => getLsbD_rotl64 x hlt, rotl64_zero x, rfl,
    rotr64_rotl64 x hlt, rotl64_rotr64 x hlt⟩

end Sys2Proof.Machine
end

section
/-! R29: every operation keeps two engines alike. What a result reads of the buffer are valid bytes, or
bytes the same operation has just written. -/

namespace Sys2Proof.Machine

open Sys2Proof.Config

variable (s : State)

theorem State.bufByte_writeBytes_below {a j : Nat} (h : j < a) (bs : List Byte) :
    (s.setBuf (s.buf.writeBytes a bs)).bufByte j = s.bufByte j := by
  rw [State.bufByte, State.setBuf_buf, Memory.read_writeBytes, if_neg (by omega)]
  rfl

theorem State.bufByte_writeBytes_within {a j : Nat} {bs : List Byte} (ha : a ≤ j)
    (h : j - a < bs.length) :
    (s.setBuf (s.buf.writeBytes a bs)).bufByte j = bs[j - a] := by
  apply State.bufByte_of_read
  rw [State.setBuf_buf, Memory.read_writeBytes, if_pos (by omega), List.getElem?_eq_getElem h]

/-- Topping off writes from `pending` on, past the valid bytes (R83 step 2). -/
@[simp] theorem State.topOff_validBytes (v : Variant) (data : List Byte) :
    (s.topOff v data).validBytes = s.validBytes := by
  obtain ⟨hbuf, hpending, -, -, -, -, hfree⟩ := s.topOff_frame v data
  rw [State.validBytes, State.validBytes, hpending]
  refine List.map_congr_left fun j hj => ?_
  rw [← s.bufByte_writeBytes_below (List.mem_range.mp hj) (data.take (96 - s.pending.toNat)),
    State.bufByte, State.bufByte, hbuf, hfree, State.setBuf_buf, State.setBuf_freeCount]

/-- Every valid byte after FLUSH is one that FLUSH has written, whatever the buffer held (R83 step 5). -/
theorem State.absorbRest_validBytes (v : Variant) (data : List Byte) (off : Nat) :
    (s.absorbRest v data off).validBytes = data.drop (off + 96 * ((data.length - off) / 96)) := by
  have hfits : (data.drop (off + 96 * ((data.length - off) / 96))).length < 2 ^ 7 := by
    rw [List.length_drop]
    omega
  have hpending : (s.absorbRest v data off).pending.toNat =
      (data.drop (off + 96 * ((data.length - off) / 96))).length := by
    rw [State.absorbRest, State.freshen_pending, State.setTotalLength_pending,
      State.setPending_pending, BitVec.toNat_ofNat, Nat.mod_eq_of_lt hfits]
  refine State.validBytes_eq _ hpending fun j hj => ?_
  rw [hpending] at hj
  rw [List.getElem?_eq_getElem hj]
  apply Memory.read_keepBelow_of_some hj
  rw [Memory.read_writeBytes, if_pos (by omega), Nat.sub_zero, List.getElem?_eq_getElem hj]

end Sys2Proof.Machine

namespace Sys2Proof.Safety

open Sys2Proof.Machine Sys2Proof.Config

/-- Two outcomes, reached from `s` and `t`, that no host can tell apart: next states that are alike,
with the same port, and the same responses added. -/
def AlikeOutcomes (s t : State) (o p : Host.Outcome State Fault Refusal) : Prop :=
  ∃ s' t' new, o = .next s' ∧ p = .next t' ∧ Alike s' t' ∧ s'.port = t'.port ∧
    s'.responses = s.responses ++ new ∧ t'.responses = t.responses ++ new

/-- `s'` has the flag, the counters and the valid bytes of `s`; the lanes may have moved on. -/
structure SameButLanes (s s' : State) : Prop where
  context : s'.valid = s.valid
  pending : s'.pending = s.pending
  totalLength : s'.totalLength = s.totalLength
  bytes : s'.validBytes = s.validBytes

theorem sameButLanes_primeOnce (v : Variant) (s : State) : SameButLanes s (s.primeOnce v) := by
  obtain ⟨-, hpending, htotal, hvalid, -⟩ := s.primeOnce_frame v
  exact ⟨hvalid, hpending, htotal, s.primeOnce_validBytes v⟩

theorem sameButLanes_topOff (v : Variant) (s : State) (data : List Byte) :
    SameButLanes s (s.topOff v data) := by
  obtain ⟨-, hpending, htotal, hvalid, -⟩ := s.topOff_frame v data
  exact ⟨hvalid, hpending, htotal, s.topOff_validBytes v data⟩

variable {s t : State}

/-! ### The operations -/

theorem Alike.bufByte (h : Alike s t) (hv : s.valid = true) {j : Nat} (hj : j < s.pending.toNat) :
    s.bufByte j = t.bufByte j := by
  have hs : j < s.validBytes.length := by simpa using hj
  rw [← s.validBytes_getElem j hs, ← t.validBytes_getElem j (h.bytes hv ▸ hs)]
  exact List.getElem_of_eq (h.bytes hv) hs

theorem Alike.primed (h : Alike s t) (hv : s.valid = true) : primed s = primed t := by
  rw [Machine.primed, Machine.primed, h.totalLength hv]

theorem Alike.takeEvent (h : Alike s t) : Alike s.takeEvent t.takeEvent :=
  ⟨h.context, h.lanes, h.pending, h.totalLength, h.bytes⟩

theorem Alike.answer (h : Alike s t) (r : List Byte) : Alike (s.answer r) (t.answer r) :=
  ⟨h.context, h.lanes, h.pending, h.totalLength, h.bytes⟩

/-- INIT forgets everything: any two states are alike after it (R80). -/
theorem alike_openContext (s t : State) (s1 s2 : Word) :
    Alike (s.openContext s1 s2) (t.openContext s1 s2) :=
  ⟨rfl, fun _ => rfl, fun _ => rfl, fun _ => rfl, fun _ => rfl⟩

/-- Reset leaves no context, so nothing of the free values it leaves can be seen (R130). -/
theorem alike_applyReset (s t : State) : Alike s.applyReset t.applyReset :=
  ⟨rfl, nofun, nofun, nofun, nofun⟩

theorem Alike.bufferData (h : Alike s t) {data : List Byte}
    (hp : s.pending.toNat + data.length < 96) : Alike (s.bufferData data) (t.bufferData data) where
  context := h.context
  lanes := h.lanes
  pending hv := congrArg (fun p : BitVec 7 => BitVec.ofNat 7 (p.toNat + data.length)) (h.pending hv)
  totalLength hv :=
    congrArg (fun n : BitVec 64 => BitVec.ofNat 64 (n.toNat + data.length)) (h.totalLength hv)
  bytes hv := by
    rw [s.bufferData_validBytes hp, t.bufferData_validBytes (h.pending hv ▸ hp), h.bytes hv]

/-- An operation on the lanes alone keeps two engines alike when it gives them equal lanes. -/
theorem Alike.of_lanes (h : Alike s t) {s' t' : State} (hs : SameButLanes s s')
    (ht : SameButLanes t t') (hlanes : s.valid = true → s'.h = t'.h) : Alike s' t' where
  context := by rw [hs.context, ht.context, h.context]
  lanes hv := hlanes (hs.context ▸ hv)
  pending hv := by rw [hs.pending, ht.pending, h.pending (hs.context ▸ hv)]
  totalLength hv := by rw [hs.totalLength, ht.totalLength, h.totalLength (hs.context ▸ hv)]
  bytes hv := by rw [hs.bytes, ht.bytes, h.bytes (hs.context ▸ hv)]

theorem Alike.primeOnce (h : Alike s t) (v : Variant) : Alike (s.primeOnce v) (t.primeOnce v) :=
  h.of_lanes (sameButLanes_primeOnce v s) (sameButLanes_primeOnce v t) fun hv => by
    rw [State.primeOnce_h, State.primeOnce_h, h.totalLength hv, h.lanes hv]

/-- The block FLUSH mixes first: below `pending` it is valid bytes, from there on it is payload
(R83 steps 2 and 3). -/
theorem Alike.bufBlock_topped (h : Alike s t) (hv : s.valid = true) {data : List Byte}
    (hl : 96 ≤ s.pending.toNat + data.length) :
    (s.setBuf (s.buf.writeBytes s.pending.toNat (data.take (96 - s.pending.toNat)))).bufBlock =
      (t.setBuf (t.buf.writeBytes t.pending.toNat (data.take (96 - t.pending.toNat)))).bufBlock := by
  rw [← h.pending hv, State.bufBlock, State.bufBlock]
  refine congrArg Vector.ofFn (funext fun j => ?_)
  by_cases hj : j.val < s.pending.toNat
  · rw [State.bufByte_writeBytes_below _ hj, State.bufByte_writeBytes_below _ hj, h.bufByte hv hj]
  · have htaken : j.val - s.pending.toNat < (data.take (96 - s.pending.toNat)).length := by
      rw [List.length_take]
      omega
    rw [State.bufByte_writeBytes_within _ (Nat.le_of_not_lt hj) htaken,
      State.bufByte_writeBytes_within _ (Nat.le_of_not_lt hj) htaken]

theorem Alike.topOff (h : Alike s t) (v : Variant) {data : List Byte}
    (hl : 96 ≤ s.pending.toNat + data.length) : Alike (s.topOff v data) (t.topOff v data) :=
  h.of_lanes (sameButLanes_topOff v s data) (sameButLanes_topOff v t data) fun hv =>
    congrArg₂ (blockmix v) (h.lanes hv) (h.bufBlock_topped hv hl)

theorem Alike.absorbRest (h : Alike s t) (v : Variant) (data : List Byte) (off : Nat) :
    Alike (s.absorbRest v data off) (t.absorbRest v data off) where
  context := h.context
  lanes hv := congrArg (mixBlocks v · data off _) (h.lanes hv)
  pending _ := rfl
  totalLength hv :=
    congrArg (fun n : BitVec 64 => BitVec.ofNat 64 (n.toNat + data.length)) (h.totalLength hv)
  bytes _ := by rw [State.absorbRest_validBytes, State.absorbRest_validBytes]

theorem Alike.flushData (h : Alike s t) (v : Variant) (hv : s.valid = true) {data : List Byte}
    (hl : 96 ≤ s.pending.toNat + data.length) : Alike (s.flushData v data) (t.flushData v data) := by
  obtain ⟨-, hp, -⟩ := s.primeOnce_frame v
  rw [State.flushData, State.flushData, ← h.pending hv]
  exact ((h.primeOnce v).topOff v (hp.symm ▸ hl)).absorbRest v data _

theorem Alike.absorb (h : Alike s t) (v : Variant) (hv : s.valid = true) (data : List Byte) :
    Alike (s.absorb v data) (t.absorb v data) := by
  have hp := h.pending hv
  rcases Nat.lt_or_ge (s.pending.toNat + data.length) 96 with hbuffer | hflush
  · rw [s.absorb_buffer v hbuffer, t.absorb_buffer v (hp ▸ hbuffer)]
    exact h.bufferData hbuffer
  · rw [s.absorb_flush v hflush, t.absorb_flush v (hp ▸ hflush)]
    exact h.flushData v hv hflush

theorem Alike.finalDigest (h : Alike s t) (v : Variant) (hv : s.valid = true) :
    s.finalDigest v = t.finalDigest v := by
  rw [State.finalDigest, State.finalDigest, h.primed hv, h.lanes hv, h.bytes hv]

/-! ### The commands and the step -/

/-- The same response, after effects that leave the engines alike. -/
theorem alikeOutcomes_answer {s' t' : State} (h : Alike s' t') (hport : s'.port = t'.port)
    (hs : s'.responses = s.responses) (ht : t'.responses = t.responses) (r : List Byte) :
    AlikeOutcomes s t (.next (s'.answer r)) (.next (t'.answer r)) :=
  ⟨_, _, [r], rfl, rfl, h.answer r, hport, congrArg (· ++ [r]) hs, congrArg (· ++ [r]) ht⟩

/-- A response that leaves the registers alone: a refusal, a digest. -/
theorem Alike.answers (h : Alike s t) (hport : s.port = t.port) (r : List Byte) :
    AlikeOutcomes s t (.next (s.answer r)) (.next (t.answer r)) :=
  alikeOutcomes_answer h hport rfl rfl r

/-- UPDATE takes the same branch in both engines: its checks read the flag and `totalLength` (R81). -/
theorem Alike.exec_update (h : Alike s t) (hport : s.port = t.port) (data : List Byte) :
    AlikeOutcomes s t (exec (.update data) s) (exec (.update data) t) := by
  cases hv : s.valid with
  | false =>
    rw [exec_update_noContext hv, exec_update_noContext (h.context ▸ hv)]
    exact h.answers hport _
  | true =>
    have htv : t.valid = true := h.context ▸ hv
    have htotal := h.totalLength hv
    rcases Nat.lt_or_ge (2 ^ 64 - 1) (s.totalLength.toNat + data.length) with hover | hfits
    · rw [exec_update_lenOverflow hv hover, exec_update_lenOverflow htv (htotal ▸ hover)]
      exact h.answers hport _
    · rw [exec_update_ok hv hfits, exec_update_ok htv (htotal ▸ hfits)]
      obtain ⟨-, hsport, hsresp⟩ := s.absorb_frame bheA data
      obtain ⟨-, htport, htresp⟩ := t.absorb_frame bheA data
      exact alikeOutcomes_answer (h.absorb bheA hv data) (by rw [hsport, htport, hport])
        hsresp htresp _

theorem Alike.exec_final (h : Alike s t) (hport : s.port = t.port) :
    AlikeOutcomes s t (exec .final s) (exec .final t) := by
  cases hv : s.valid with
  | false =>
    rw [exec_final_noContext hv, exec_final_noContext (h.context ▸ hv)]
    exact h.answers hport _
  | true =>
    rw [exec_final_ok hv, exec_final_ok (h.context ▸ hv), h.finalDigest bheA hv]
    exact h.answers hport _

theorem Alike.exec_init (h : Alike s t) (hport : s.port = t.port) (key : List Byte) :
    AlikeOutcomes s t (exec (.init key) s) (exec (.init key) t) := by
  rcases Nat.lt_or_ge 16 key.length with hlong | hfits
  · rw [exec_init_keyTooLong hlong, exec_init_keyTooLong hlong]
    exact h.answers hport _
  · rw [exec_init_ok hfits, exec_init_ok hfits]
    exact alikeOutcomes_answer (alike_openContext s t _ _) hport rfl rfl _

theorem Alike.exec_oneshot (h : Alike s t) (hport : s.port = t.port) (key message : List Byte) :
    AlikeOutcomes s t (exec (.oneshot key message) s) (exec (.oneshot key message) t) := by
  rcases Nat.lt_or_ge 16 key.length with hlong | hfits
  · rw [exec_oneshot_keyTooLong hlong, exec_oneshot_keyTooLong hlong]
    exact h.answers hport _
  · rw [exec_oneshot_ok hfits, exec_oneshot_ok hfits]
    exact h.answers hport _

theorem Alike.exec (h : Alike s t) (hport : s.port = t.port) (i : Instr) :
    AlikeOutcomes s t (exec i s) (exec i t) := by
  cases i with
  | init key => exact h.exec_init hport key
  | update data => exact h.exec_update hport data
  | final => exact h.exec_final hport
  | oneshot key message => exact h.exec_oneshot hport key message

/-- Reset answers nothing and ends both contexts (R132). -/
theorem alikeOutcomes_applyReset (hport : s.port = t.port) :
    AlikeOutcomes s t (.next s.applyReset) (.next t.applyReset) :=
  ⟨_, _, [], rfl, rfl, alike_applyReset s t, hport, (List.append_nil _).symm,
    (List.append_nil _).symm⟩

/-- Both engines take the same event, and each event's transaction keeps them alike. -/
theorem Alike.step (h : Alike s t) (hport : s.port = t.port) :
    AlikeOutcomes s t (step s) (step t) := by
  have htaken : s.takeEvent.port = t.takeEvent.port := congrArg List.tail hport
  cases hs : s.port with
  | nil =>
    rw [step_idle hs, step_idle (hport ▸ hs)]
    exact ⟨s, t, [], rfl, rfl, h, hport, (List.append_nil _).symm, (List.append_nil _).symm⟩
  | cons e rest =>
    have ht := hport ▸ hs
    cases e with
    | command frame =>
      cases hd : decode frame with
      | ok i =>
        rw [step_command hs hd, step_command ht hd]
        exact h.takeEvent.exec htaken i
      | error r =>
        rw [step_rejected hs hd, step_rejected ht hd]
        exact h.takeEvent.answers htaken _
    | reset =>
      rw [step_reset hs, step_reset ht]
      exact alikeOutcomes_applyReset htaken
    | resetDuring frame =>
      rw [step_resetDuring hs, step_resetDuring ht]
      exact alikeOutcomes_applyReset htaken

/-- Settles O52: alikeness is a two-state invariant that every operation, every command and so every
step keeps. -/
theorem staleBytesAreUnobservable : Obligations.StaleBytesAreUnobservable := by
  unfold Obligations.StaleBytesAreUnobservable
  exact fun _ _ h hport => h.step hport

end Sys2Proof.Safety
end

section
/-! R47: the seeds of a key. Zero bytes on the right of a little-endian string weigh nothing, so padding
a key leaves the values of its two halves alone. -/

namespace Sys2Proof.Machine

@[simp] theorem leNat_zeros (n : Nat) : leNat (List.replicate n 0) = 0 := by
  induction n with
  | zero => rfl
  | succ n ih => rw [List.replicate_succ, leNat, ih]; rfl

/-- Zero bytes in the most significant places add nothing (R33). -/
theorem leNat_append_zeros (s : List Byte) (n : Nat) :
    leNat (s ++ List.replicate n 0) = leNat s := by
  induction s with
  | nil => exact leNat_zeros n
  | cons b s ih => rw [List.cons_append, leNat, leNat, ih]

theorem le64_bytesLE64 (w : Word) : le64 (bytesLE64 w) = w := by
  apply BitVec.eq_of_toNat_eq
  rw [le64_toNat (bytesLE64_length w).le, bytesLE64, leNat_leBytes]
  exact Nat.mod_eq_of_lt w.isLt

theorem paddedKey_of_full {key : List Byte} (h : key.length = 16) : paddedKey key = key := by
  rw [paddedKey, h]
  exact List.append_nil key

theorem paddedKey_length {key : List Byte} (h : key.length ≤ 16) : (paddedKey key).length = 16 := by
  rw [paddedKey, List.length_append, List.length_replicate, Nat.add_sub_cancel' h]

/-- Padding a key that is partly padded already gives the same 16 bytes. -/
theorem paddedKey_append_zeros {key : List Byte} {n : Nat} (h : key.length + n ≤ 16) :
    paddedKey (key ++ List.replicate n 0) = paddedKey key := by
  have hcount : n + (16 - (key.length + n)) = 16 - key.length := by omega
  rw [paddedKey, paddedKey, List.length_append, List.length_replicate, List.append_assoc,
    List.replicate_append_replicate, hcount]

/-- The first half of the padded key is the key's first eight bytes and zero bytes. -/
theorem leNat_paddedKey_low (key : List Byte) :
    leNat (slice (paddedKey key) 0 8) = leNat (key.take 8) := by
  rw [slice, List.drop_zero, paddedKey, List.take_append, List.take_replicate, leNat_append_zeros]

/-- The second half of the padded key is the key's remaining bytes and zero bytes. -/
theorem leNat_paddedKey_high {key : List Byte} (h : key.length ≤ 16) :
    leNat (slice (paddedKey key) 8 8) = leNat (key.drop 8) := by
  have hrest : ((paddedKey key).drop 8).length ≤ 8 := by
    rw [List.length_drop, paddedKey_length h]
  rw [slice, List.take_of_length_le hrest, paddedKey, List.drop_append, List.drop_replicate,
    leNat_append_zeros]

theorem seed1_toNat (key : List Byte) : (seed1 key).toNat = leNat (key.take 8) := by
  rw [seed1, le64_slice_toNat, leNat_paddedKey_low]

theorem seed2_toNat {key : List Byte} (h : key.length ≤ 16) :
    (seed2 key).toNat = leNat (key.drop 8) := by
  rw [seed2, le64_slice_toNat, leNat_paddedKey_high h]

theorem paddedKey_keyOfSeeds (s1 s2 : Word) :
    paddedKey (keyOfSeeds s1 s2) = bytesLE64 s1 ++ bytesLE64 s2 :=
  paddedKey_of_full (by rw [keyOfSeeds, List.length_append, bytesLE64_length, bytesLE64_length])

@[simp] theorem seed1_keyOfSeeds (s1 s2 : Word) : seed1 (keyOfSeeds s1 s2) = s1 := by
  rw [seed1, paddedKey_keyOfSeeds, slice_append_left (bytesLE64_length s1), le64_bytesLE64]

@[simp] theorem seed2_keyOfSeeds (s1 s2 : Word) : seed2 (keyOfSeeds s1 s2) = s2 := by
  rw [seed2, paddedKey_keyOfSeeds, slice_append_right (bytesLE64_length s1),
    List.take_of_length_le (bytesLE64_length s2).le, le64_bytesLE64]

/-- Settles O8: a full key is its own padding, and zero bytes on the right change no half's value. -/
theorem seedsOfKeys : Obligations.SeedsOfKeys := by
  unfold Obligations.SeedsOfKeys
  refine ⟨fun s1 s2 => ⟨seed1_keyOfSeeds s1 s2, seed2_keyOfSeeds s1 s2⟩, fun key hkey =>
    ⟨seed1_toNat key, seed2_toNat hkey, fun n hn => ?_⟩⟩
  have hpad := paddedKey_append_zeros hn
  exact ⟨congrArg (fun k => le64 (slice k 0 8)) hpad, congrArg (fun k => le64 (slice k 8 8)) hpad⟩

end Sys2Proof.Machine
end

section
/-! R46: the form of every response. A command answers once: a refusal's status byte, or what its
completion carries. -/

namespace Sys2Proof.Machine

/-- What a completed command answers: OK alone, or OK and a digest (R46). -/
def CompletionForm (r : List Byte) : Instr → Prop
  | .init _ | .update _ => r = statusResponse .ok
  | .final | .oneshot _ _ => ∃ d, r = digestResponse d

/-- A status byte alone that is not OK: the response of a failed command (R46). -/
def FailureForm (r : List Byte) : Prop := ∃ st, st ≠ .ok ∧ r = statusResponse st

/-- `s` goes on to a next state in which one response is added, and `form` holds of it. -/
def AnswersOnce (s : State) (form : List Byte → Prop) (o : Host.Outcome State Fault Refusal) : Prop :=
  ∃ t r, o = .next t ∧ t.responses = s.responses ++ [r] ∧ form r

variable {s t : State}

/-- Effects that produce no response, then one response. -/
theorem answersOnce_answer {form : List Byte → Prop} {r : List Byte} (h : form r)
    (ht : t.responses = s.responses) : AnswersOnce s form (.next (t.answer r)) :=
  ⟨_, r, rfl, congrArg (· ++ [r]) ht, h⟩

theorem answersOnce_refuse {form : List Byte → Prop} {st : Status} (hst : st ≠ .ok) :
    AnswersOnce s (fun r => FailureForm r ∨ form r) (.next (s.refuse st)) :=
  answersOnce_answer (.inl ⟨st, hst, rfl⟩) rfl

theorem rejectStatus_ne_ok (r : Reject) : rejectStatus r ≠ .ok := by
  cases r <;> decide

/-- Each command's paths are the failures of its checks and its completion (R46, R110). -/
theorem exec_answersOnce (i : Instr) (s : State) :
    AnswersOnce s (fun r => FailureForm r ∨ CompletionForm r i) (exec i s) := by
  cases i with
  | init key =>
    rcases Nat.lt_or_ge 16 key.length with hlong | hfits
    · rw [exec_init_keyTooLong hlong]
      exact answersOnce_refuse (by decide)
    · rw [exec_init_ok hfits]
      exact answersOnce_answer (.inr rfl) rfl
  | update data =>
    cases hv : s.valid with
    | false =>
      rw [exec_update_noContext hv]
      exact answersOnce_refuse (by decide)
    | true =>
      rcases Nat.lt_or_ge (2 ^ 64 - 1) (s.totalLength.toNat + data.length) with hover | hfits
      · rw [exec_update_lenOverflow hv hover]
        exact answersOnce_refuse (by decide)
      · obtain ⟨-, -, hresponses⟩ := s.absorb_frame Config.bheA data
        rw [exec_update_ok hv hfits]
        exact answersOnce_answer (.inr rfl) hresponses
  | final =>
    cases hv : s.valid with
    | false =>
      rw [exec_final_noContext hv]
      exact answersOnce_refuse (by decide)
    | true =>
      rw [exec_final_ok hv]
      exact answersOnce_answer (.inr ⟨_, rfl⟩) rfl
  | oneshot key message =>
    rcases Nat.lt_or_ge 16 key.length with hlong | hfits
    · rw [exec_oneshot_keyTooLong hlong]
      exact answersOnce_refuse (by decide)
    · rw [exec_oneshot_ok hfits]
      exact answersOnce_answer (.inr ⟨_, rfl⟩) rfl

/-- A frame at the port is answered once: as the command it decodes to, or as a failure (R50). -/
theorem step_answersOnce {frame : List Byte} {rest : List PortEvent}
    (h : s.port = .command frame :: rest) :
    AnswersOnce s (fun r => FailureForm r ∨ ∃ i, decode frame = .ok i ∧ CompletionForm r i)
      (step s) := by
  cases hd : decode frame with
  | error cause =>
    rw [step_rejected h hd]
    exact answersOnce_refuse (s := s.takeEvent) (rejectStatus_ne_ok cause)
  | ok i =>
    obtain ⟨t, r, hexec, hadded, hform⟩ := exec_answersOnce i s.takeEvent
    exact ⟨t, r, (step_command h hd).trans hexec, hadded,
      hform.imp_right fun hcompleted => ⟨i, rfl, hcompleted⟩⟩

/-- The failure codes of R48. -/
theorem statusCode_mem_of_ne_ok {st : Status} (h : st ≠ .ok) :
    statusCode st ∈ [0x01, 0x02, 0x03, 0x04, 0x05] := by
  cases st with
  | ok => exact absurd rfl h
  | illegalCmd | keyTooLong | badFrame | noContext | lenOverflow => decide

/-- A digest's response written out: the OK byte, then the two serialised words (R46). -/
theorem digestResponse_eq (d : Digest) :
    digestResponse d = 0x00 :: (bytesLE64 d.d0 ++ bytesLE64 d.d1) := rfl

/-- Settles O38: the step answers once, a failure's code is 01 to 05, and each command's completion has
the form of its own row. -/
theorem responseForms : Obligations.ResponseForms := by
  unfold Obligations.ResponseForms
  intro s frame rest hport
  obtain ⟨t, r, hstep, hadded, ⟨st, hst, rfl⟩ | ⟨i, hd, hform⟩⟩ := step_answersOnce hport
  · exact ⟨t, _, hstep, hadded, .inl ⟨_, statusCode_mem_of_ne_ok hst, rfl⟩⟩
  refine ⟨t, r, hstep, hadded, .inr ?_⟩
  cases i with
  | init key => exact .inl ⟨.inl ⟨key, hd⟩, hform⟩
  | update data => exact .inl ⟨.inr ⟨data, hd⟩, hform⟩
  | final =>
    obtain ⟨d, hdigest⟩ := hform
    exact .inr ⟨.inl hd, d, hdigest.trans (digestResponse_eq d)⟩
  | oneshot key message =>
    obtain ⟨d, hdigest⟩ := hform
    exact .inr ⟨.inr ⟨key, message, hd⟩, d, hdigest.trans (digestResponse_eq d)⟩

end Sys2Proof.Machine
end

section
/-! STEP lane by lane (R61), for every wiring of three distinct lanes. STEP rewrites three lanes, each
once; BLOCKMIX of BHE-A is twelve such rewritings of the lane vector (R65). -/

namespace Sys2Proof.Machine

open Sys2Proof.Config

theorem putLane_getElem_self (x : Lanes) (i : Fin 12) (w : Word) : (putLane x i w)[i] = w :=
  Vector.getElem_set_self i.isLt

theorem putLane_getElem_of_ne {i j : Fin 12} (h : j ≠ i) (x : Lanes) (w : Word) :
    (putLane x i w)[j] = x[j] :=
  Vector.getElem_set_ne i.isLt j.isLt fun hv => h (Fin.ext hv.symm)

theorem putLane_putLane (x : Lanes) (i : Fin 12) (w w' : Word) :
    putLane (putLane x i w) i w' = putLane x i w' :=
  Vector.set_set ..

theorem lanes_eq_literal (x : Lanes) :
    x = #v[x[0], x[1], x[2], x[3], x[4], x[5], x[6], x[7], x[8], x[9], x[10], x[11]] := by
  ext j hj
  interval_cases j <;> rfl

section
variable {v : Variant} (h : v.DistinctWiring) (i : Fin 12) (d : Word) (x : Lanes)
include h

theorem laneB_ne : laneB v i ≠ i := by
  obtain ⟨hB, -, -⟩ := h
  rw [ne_eq, Fin.ext_iff, laneB, Fin.val_ofNat]
  omega

theorem laneC_ne : laneC v i ≠ i := by
  obtain ⟨-, hC, -⟩ := h
  rw [ne_eq, Fin.ext_iff, laneC, Fin.val_ofNat]
  omega

theorem laneC_ne_laneB : laneC v i ≠ laneB v i := by
  obtain ⟨-, -, hBC⟩ := h
  rw [ne_eq, Fin.ext_iff, laneC, laneB, Fin.val_ofNat, Fin.val_ofNat]
  omega

/-- Assignments 2 and 3 of R61 are one write of lane B, because rotating B leaves A alone. -/
theorem stepXor_stepRotate :
    stepXor v i (stepRotate v i x) =
      putLane x (laneB v i) (rotl64 x[laneB v i] v.rot[i] ^^^ x[i]) := by
  rw [stepXor, stepRotate, putLane_getElem_self, putLane_getElem_of_ne (laneB_ne h i).symm,
    putLane_putLane]

/-- STEP as three writes whose values come from the lanes before the step (R61). -/
theorem mixStep_eq :
    mixStep v i d x =
      let a := x[i] + d
      let b := rotl64 x[laneB v i] v.rot[i] ^^^ a
      putLane (putLane (putLane x i a) (laneB v i) b) (laneC v i) (x[laneC v i] + b) := by
  rw [mixStep, stepXor_stepRotate h, stepAdd, stepPropagate, putLane_getElem_self,
    putLane_getElem_self, putLane_getElem_of_ne (laneB_ne h i),
    putLane_getElem_of_ne (laneC_ne_laneB h i), putLane_getElem_of_ne (laneC_ne h i)]

theorem mixStep_laneA : (mixStep v i d x)[i] = x[i] + d := by
  rw [mixStep_eq h, putLane_getElem_of_ne (laneC_ne h i).symm,
    putLane_getElem_of_ne (laneB_ne h i).symm, putLane_getElem_self]

theorem mixStep_laneB :
    (mixStep v i d x)[laneB v i] = rotl64 x[laneB v i] v.rot[i] ^^^ (mixStep v i d x)[i] := by
  rw [mixStep_laneA h, mixStep_eq h, putLane_getElem_of_ne (laneC_ne_laneB h i).symm,
    putLane_getElem_self]

theorem mixStep_laneC :
    (mixStep v i d x)[laneC v i] = x[laneC v i] + (mixStep v i d x)[laneB v i] := by
  rw [mixStep_laneB h, mixStep_laneA h, mixStep_eq h, putLane_getElem_self]

theorem mixStep_frame {j : Fin 12} (hA : j ≠ i) (hB : j ≠ laneB v i) (hC : j ≠ laneC v i) :
    (mixStep v i d x)[j] = x[j] := by
  rw [mixStep_eq h, putLane_getElem_of_ne hC, putLane_getElem_of_ne hB, putLane_getElem_of_ne hA]

end

theorem bheA_distinctWiring : bheA.DistinctWiring := by decide

/-- R5: the rotation counts of BHE-A as a list. -/
theorem rot_bheA (i : Fin 12) :
    bheA.rot[i] = [13, 29, 41, 7, 53, 19, 37, 59, 23, 47, 31, 11].getD i.val 0 := by
  decide +revert

/-- Settles O12: the lane laws of STEP at the rotation counts of BHE-A, whose lanes B and C are by
definition the next lane and the next but one, round the ring of twelve (R6). -/
theorem stepWritesThreeLanes : Obligations.StepWritesThreeLanes := by
  unfold Obligations.StepWritesThreeLanes
  intro i j d x y r
  have hw := bheA_distinctWiring
  have hB := mixStep_laneB hw i d x
  rw [rot_bheA] at hB
  exact ⟨laneB_ne hw i, laneC_ne hw i, (laneC_ne_laneB hw i).symm, mixStep_laneA hw i d x, hB,
    mixStep_laneC hw i d x, mixStep_frame hw i d x⟩

/-- A row of the table of R65, its four assignments carried out on the lane vector. -/
theorem mixStep_bheA (i : Fin 12) (d : Word) (x : Lanes) :
    mixStep bheA i d x =
      let a := x[i] + d
      let b := rotl64 x[i + 1] ([13, 29, 41, 7, 53, 19, 37, 59, 23, 47, 31, 11].getD i.val 0) ^^^ a
      putLane (putLane (putLane x i a) (i + 1) b) (i + 2) (x[i + 2] + b) := by
  rw [← rot_bheA]
  exact mixStep_eq bheA_distinctWiring i d x

/-- Settles O13: BLOCKMIX is its twelve steps in order (R60), and each is run as its row of the table on
the twelve lanes written out. -/
theorem blockmixFollowsTheTable : Obligations.BlockmixFollowsTheTable := by
  unfold Obligations.BlockmixFollowsTheTable
  intro x blk
  refine (congrArg (blockmix bheA · blk) (lanes_eq_literal x)).trans ?_
  simp [blockmix, stepOrder, mixStep_bheA, putLane]

end Sys2Proof.Machine
end

section
/-! TAILWORDS byte by byte (R71). Each tail word is LE64 of a string: of the first tail bytes, or of
the others padded to seven bytes with the length on top. Its bytes are then read off that string. -/

namespace Sys2Proof.Machine

/-- Byte `k` is the digit of weight 256^k of the string's value (R33). -/
theorem leNat_digit (s : List Byte) (k : Nat) : leNat s / 256 ^ k % 256 = (s.getD k 0).toNat := by
  induction s generalizing k with
  | nil => rw [leNat, Nat.zero_div]; rfl
  | cons b s ih =>
    have hb : b.toNat < 256 := b.isLt
    rw [leNat]
    cases k with
    | zero => rw [pow_zero, Nat.div_one, List.getD_cons_zero]; omega
    | succ k =>
      have hshift : (b.toNat + 256 * leNat s) / 256 = leNat s := by omega
      rw [pow_succ', ← Nat.div_div_eq_div_mul, hshift, ih, List.getD_cons_succ]

theorem leNat_append (s t : List Byte) :
    leNat (s ++ t) = leNat s + 256 ^ s.length * leNat t := by
  induction s with
  | nil => rw [List.nil_append, leNat, List.length_nil, pow_zero, one_mul, zero_add]
  | cons b s ih => rw [List.cons_append, leNat, leNat, ih, List.length_cons]; ring

/-- Byte `k` of the word is byte `k` of the string (R33). -/
theorem le64_byte {s : List Byte} (h : s.length ≤ 8) (k : Nat) :
    (le64 s >>> (8 * k)).setWidth 8 = s.getD k 0 := by
  apply BitVec.eq_of_toNat_eq
  rw [BitVec.toNat_setWidth, BitVec.toNat_ushiftRight, le64_toNat h, Nat.shiftRight_eq_div_pow,
    pow_mul]
  exact leNat_digit s k

theorem packBytes_eq (s : List Byte) (k : Nat) :
    packBytes s (8 * k) = BitVec.ofNat 64 (256 ^ k * leNat s) := by
  induction s generalizing k with
  | nil => rfl
  | cons b s ih =>
    have hfirst : b.setWidth 64 <<< (8 * k) = BitVec.ofNat 64 (256 ^ k * b.toNat) := by
      apply BitVec.eq_of_toNat_eq
      have hb : b.toNat < 2 ^ 64 := b.isLt.trans (by decide)
      rw [BitVec.toNat_shiftLeft, BitVec.toNat_setWidth, Nat.mod_eq_of_lt hb,
        Nat.shiftLeft_eq, pow_mul, mul_comm, BitVec.toNat_ofNat]
      rfl
    rw [packBytes, ← Nat.mul_succ, ih, hfirst, ← BitVec.ofNat_add, leNat, pow_succ, mul_add,
      mul_assoc]

/-- The sum of shifted bytes is the little-endian value. -/
theorem packBytes_zero (s : List Byte) : packBytes s 0 = le64 s := by
  rw [← Nat.mul_zero 8, packBytes_eq, pow_zero, one_mul, le64]

/-- The string of the second tail word: the tail from byte 8 on, zeros up to byte 6, the length. -/
def lengthTopped (tail : List Byte) (n : Nat) : List Byte :=
  tail.drop 8 ++ List.replicate (7 - (tail.drop 8).length) 0 ++ [BitVec.ofNat 8 n]

theorem getD_append_zeros (s : List Byte) (m k : Nat) :
    (s ++ List.replicate m 0).getD k 0 = s.getD k 0 := by
  rcases Nat.lt_or_ge k s.length with hin | hpast
  · exact List.getD_append s _ 0 k hin
  · rw [List.getD_append_right s _ 0 k hpast, List.getD_eq_default s 0 hpast,
      List.getD_eq_getElem?_getD, List.getElem?_getD_replicate_default_eq]

theorem tailwords_eq (tail : List Byte) (n : Nat) :
    tailwords tail n =
      (le64 (tail.take 8), (BitVec.ofNat 64 n <<< 56) + le64 (tail.drop 8)) := by
  rw [tailwords, packBytes_zero, packBytes_zero]

section
variable {tail : List Byte} (h : tail.length ≤ 15)
include h

theorem paddedTail_length :
    (tail.drop 8 ++ List.replicate (7 - (tail.drop 8).length) 0).length = 7 := by
  rw [List.length_append, List.length_replicate, List.length_drop]
  omega

theorem lengthTopped_length (n : Nat) : (lengthTopped tail n).length = 8 := by
  rw [lengthTopped, List.length_append, paddedTail_length h, List.length_singleton]

theorem lengthTopped_getD (n : Nat) {k : Nat} (hk : k < 8) :
    (lengthTopped tail n).getD k 0 = if k = 7 then BitVec.ofNat 8 n else tail.getD (8 + k) 0 := by
  have hlength := paddedTail_length h
  rw [lengthTopped]
  split
  case isTrue htop =>
    rw [htop, List.getD_append_right _ _ _ _ hlength.le, hlength]
    rfl
  case isFalse hbelow =>
    rw [List.getD_append _ _ _ _ (by omega), getD_append_zeros]
    simp [List.getD_eq_getElem?_getD]

/-- R71: the sum has no carry into the top byte, because the tail bytes end below it. -/
theorem tailwords_snd (n : Nat) : (tailwords tail n).2 = le64 (lengthTopped tail n) := by
  have htop : BitVec.ofNat 64 n <<< 56 = BitVec.ofNat 64 (256 ^ 7 * (n % 256)) := by
    apply BitVec.eq_of_toNat_eq
    rw [BitVec.toNat_shiftLeft, BitVec.toNat_ofNat, BitVec.toNat_ofNat, Nat.shiftLeft_eq]
    omega
  have hvalue : 256 ^ 7 * (n % 256) + leNat (tail.drop 8) = leNat (lengthTopped tail n) := by
    rw [lengthTopped, leNat_append, paddedTail_length h, leNat_append_zeros, add_comm, leNat, leNat,
      BitVec.toNat_ofNat, mul_zero, add_zero]
  rw [tailwords_eq, htop, le64, le64, le64, ← hvalue, BitVec.ofNat_add]

end

/-- Settles O17: each tail word is LE64 of eight bytes at most, and byte `j` of the word is byte `j`
of that string. -/
theorem tailwordBytes : Obligations.TailwordBytes := by
  unfold Obligations.TailwordBytes
  intro tail n j htail _ _ hj
  constructor
  · rw [tailwords_eq, le64_byte (List.length_take_le 8 tail), List.getD_eq_getElem?_getD,
      List.getElem?_take_of_lt hj, List.getD_eq_getElem?_getD]
  · rw [tailwords_snd htail, le64_byte (lengthTopped_length htail n).le,
      lengthTopped_getD htail n hj]

end Sys2Proof.Machine
end

section
/-! SHORTMIX as a fold over chunk numbers (R74). -/

namespace Sys2Proof.Machine

open Sys2Proof.Config

/-- CHUNKMIX of chunk number `c` of the message (R74). -/
def mixChunk (v : Variant) (msg : List Byte) (acc : ShortAcc) (c : Nat) : ShortAcc :=
  chunkmix v acc (le64 (slice msg (16 * c) 8)) (le64 (slice msg (16 * c + 8) 8))

/-- `n` chunks from chunk `c` on are the chunks numbered `c`, `c + 1`, … in this order (R74). -/
theorem mixChunks_eq_foldl (v : Variant) (msg : List Byte) (c n : Nat) (acc : ShortAcc) :
    mixChunks v msg (16 * c) n acc = (List.range' c n).foldl (mixChunk v msg) acc := by
  induction n generalizing c acc with
  | zero => rfl
  | succ n ih =>
    rw [mixChunks, ← Nat.mul_succ, ih, List.range'_succ, List.foldl_cons, mixChunk]

theorem mixChunks_zero_eq_foldl (v : Variant) (msg : List Byte) (n : Nat) (acc : ShortAcc) :
    mixChunks v msg 0 n acc = (List.range n).foldl (mixChunk v msg) acc := by
  rw [List.range_eq_range']
  exact mixChunks_eq_foldl v msg 0 n acc

theorem slice_to_end (s : List Byte) (i : Nat) : slice s i (s.length - i) = s.drop i :=
  List.take_of_length_le List.length_drop.le

/-- Settles O18: the chunk loop is the fold over the chunk numbers from 0, and the tail is what
follows the last whole chunk. -/
theorem shortmixRunsByChunks : Obligations.ShortmixRunsByChunks := by
  unfold Obligations.ShortmixRunsByChunks
  intro v msg s1 s2 hshort n q chunk acc t e
  have hchunks : mixChunks v msg 0 q (s1, s2) = acc := mixChunks_zero_eq_foldl v msg q (s1, s2)
  have htail : tailwords (msg.drop (16 * q)) n = t :=
    congrArg (tailwords · n) (slice_to_end msg (16 * q)).symm
  refine ⟨Nat.le_of_lt_succ (Nat.div_lt_of_lt_mul hshort), ?_⟩
  rw [shortmix, hchunks, htail]

end Sys2Proof.Machine
end

section
/-! UPDATE's two branches as commands (R82, R83), and the empty payload, which BUFFER leaves without
effect (R84). -/

namespace Sys2Proof.Machine

open Sys2Proof.Config

variable {s : State} {data : List Byte}

theorem exec_update_buffer (hv : s.valid = true)
    (ho : s.totalLength.toNat + data.length ≤ 2 ^ 64 - 1)
    (hp : s.pending.toNat + data.length < 96) :
    exec (.update data) s = .next ((s.bufferData data).answer (statusResponse .ok)) := by
  rw [exec_update_ok hv ho, s.absorb_buffer bheA hp]

theorem exec_update_flush (hv : s.valid = true)
    (ho : s.totalLength.toNat + data.length ≤ 2 ^ 64 - 1)
    (hl : 96 ≤ s.pending.toNat + data.length) :
    exec (.update data) s = .next ((s.flushData bheA data).answer (statusResponse .ok)) := by
  rw [exec_update_ok hv ho, s.absorb_flush bheA hl]

/-- Settles O24: the command is BUFFER and then OK, and BUFFER's laws give each field. -/
theorem updateBuffers : Obligations.UpdateBuffers := by
  unfold Obligations.UpdateBuffers
  intro data s hv ho hp
  obtain ⟨hpending, htotal⟩ := s.bufferData_counters hp ho
  obtain ⟨hlanes, hvalid, hport, hresponses, hfree⟩ := s.bufferData_frame data
  exact ⟨_, exec_update_buffer hv ho hp, hpending, htotal, hlanes, hvalid, hport, hfree,
    congrArg (· ++ [[0x00]]) hresponses, s.bufferData_read data⟩

/-- Settles O25: the command is FLUSH and then OK, and FLUSH's laws give each field. -/
theorem updateFlushes : Obligations.UpdateFlushes := by
  unfold Obligations.UpdateFlushes
  intro data s hv ho hp hl
  have hpending := s.flushData_pending bheA hp hl
  obtain ⟨hvalid, hport, hresponses, -⟩ := s.flushData_frame bheA data
  refine ⟨_, exec_update_flush hv ho hl, ?_⟩
  simp only [State.answer_pending, State.answer_totalLength, State.answer_h, State.answer_buf,
    State.answer_valid, State.answer_port, State.answer_responses]
  exact ⟨hpending, s.flushData_totalLength bheA ho, s.flushData_h bheA hp hl,
    fun a ha => s.flushData_read bheA hp hl (hpending ▸ ha), hvalid, hport,
    congrArg (· ++ [[0x00]]) hresponses⟩

@[simp] theorem State.setPending_self (s : State) : s.setPending s.pending.toNat = s := by
  rw [State.setPending, BitVec.ofNat_toNat, BitVec.setWidth_eq]

@[simp] theorem State.setTotalLength_self (s : State) :
    s.setTotalLength s.totalLength.toNat = s := by
  rw [State.setTotalLength, BitVec.ofNat_toNat, BitVec.setWidth_eq]

/-- No byte is written and both counters advance by nothing (R84). -/
theorem State.bufferData_nil (s : State) : s.bufferData [] = s :=
  calc s.bufferData []
      = (s.setPending s.pending.toNat).setTotalLength s.totalLength.toNat := rfl
    _ = s := by rw [State.setPending_self, State.setTotalLength_self]

/-- Settles O26: an empty payload overflows no counter and fills no block, so UPDATE is a BUFFER of
nothing; the check of the context comes before it. -/
theorem emptyUpdateIsNoOp : Obligations.EmptyUpdateIsNoOp := by
  unfold Obligations.EmptyUpdateIsNoOp
  intro s
  constructor
  · intro hv hp
    have hfits : s.totalLength.toNat + ([] : List Byte).length ≤ 2 ^ 64 - 1 :=
      Nat.le_pred_of_lt s.totalLength.isLt
    rw [exec_update_buffer hv hfits hp, State.bufferData_nil]
    rfl
  · intro hv
    exact exec_update_noContext hv []

end Sys2Proof.Machine
end

section
/-! FINAL (R85 to R88). It answers a digest that no response takes part in, so it can be repeated or
left out; from one block on the digest is four mixes of the block that FINALBLOCK pads. -/

namespace Sys2Proof.Machine

open Sys2Proof.Config Sys2Proof.Safety

/-! ### The padded block and its four mixes (R86) -/

theorem finalBlock_getElem (tail : List Byte) {j : Nat} (hj : j < 96) :
    (finalBlock tail)[j] = if j = 95 then BitVec.ofNat 8 tail.length else tail.getD j 0 := by
  rw [finalBlock, Vector.getElem_ofFn]

/-- The final block byte for byte: the tail, zeros up to byte 94, the tail's length. -/
theorem finalBlock_toList {tail : List Byte} (h : tail.length ≤ 95) :
    (finalBlock tail).toList =
      tail ++ List.replicate (95 - tail.length) 0 ++ [BitVec.ofNat 8 tail.length] := by
  have hpadded : (tail ++ List.replicate (95 - tail.length) 0).length = 95 := by
    rw [List.length_append, List.length_replicate, Nat.add_sub_cancel' h]
  apply List.ext_getElem
  · rw [Vector.length_toList, List.length_append, hpadded, List.length_singleton]
  intro j hj _
  rw [Vector.length_toList] at hj
  rw [Vector.getElem_toList, finalBlock_getElem tail hj]
  by_cases hlast : j = 95
  · rw [if_pos hlast, List.getElem_append_right (by omega), List.getElem_singleton]
  · have hin : j < (tail ++ List.replicate (95 - tail.length) 0).length := by omega
    rw [if_neg hlast, List.getElem_append_left hin, ← List.getD_eq_getElem _ 0 hin,
      getD_append_zeros]

theorem finalMix_eq (v : Variant) (x : Lanes) (tail : List Byte) :
    let mix := fun y : Lanes => blockmix v y (finalBlock tail)
    finalMix v x tail = ⟨(mix (mix (mix (mix x))))[0], (mix (mix (mix (mix x))))[11]⟩ := by
  simp only [finalMix, remix]

variable {s : State}

theorem State.finalDigest_block (v : Variant) (h : 96 ≤ s.totalLength.toNat) :
    s.finalDigest v = finalMix v s.h s.validBytes :=
  if_pos ((primed_iff s).mpr h)

theorem State.finalDigest_short (v : Variant) (h : s.totalLength.toNat < 96) :
    s.finalDigest v = shortmix v s.validBytes s.h[0] s.h[1] :=
  if_neg fun hprimed => Nat.not_le.mpr h ((primed_iff s).mp hprimed)

/-- Settles O28: the given block is the one FINALBLOCK pads, for both have the same bytes. -/
theorem finalMixesFourTimes : Obligations.FinalMixesFourTimes := by
  unfold Obligations.FinalMixesFourTimes
  intro s fb hv hblock hp hfb
  have htail : s.validBytes.length ≤ 95 := s.validBytes_length.symm ▸ Nat.le_of_lt_succ hp
  have hpad : fb = finalBlock s.validBytes := by
    rw [← Vector.toList_inj, hfb, finalBlock_toList htail, State.validBytes_length]
  subst hpad
  rw [exec_final_ok hv, State.finalDigest_block bheA hblock, finalMix_eq, digestResponse_eq]
  rfl

/-! ### A response takes no part in FINAL's digest (R87) -/

@[simp] theorem State.finalDigest_answer (v : Variant) (s : State) (r : List Byte) :
    (s.answer r).finalDigest v = s.finalDigest v := by
  have hprimed : primed (s.answer r) = primed s := rfl
  rw [State.finalDigest, State.finalDigest, hprimed, State.validBytes_answer, State.answer_h]

theorem exec_final_answer (hv : s.valid = true) (r : List Byte) :
    exec .final (s.answer r) =
      .next ((s.answer r).answer (digestResponse (s.finalDigest bheA))) := by
  rw [exec_final_ok (s := s.answer r) hv, State.finalDigest_answer]

/-- UPDATE has the same effect, and gives the same answer, after a response `r` as without it. -/
theorem exec_update_answer (hv : s.valid = true) (r data : List Byte) :
    ∃ (e : State) (q : List Byte), e.valid = true ∧ exec (.update data) s = .next (e.answer q) ∧
      exec (.update data) (s.answer r) = .next ((e.answer r).answer q) := by
  rcases Nat.lt_or_ge (2 ^ 64 - 1) (s.totalLength.toNat + data.length) with hover | hfits
  · exact ⟨s, _, hv, exec_update_lenOverflow hv hover,
      exec_update_lenOverflow (s := s.answer r) hv hover⟩
  · obtain ⟨hvalid, -, -⟩ := s.absorb_frame bheA data
    refine ⟨s.absorb bheA data, _, hvalid.trans hv, exec_update_ok hv hfits, ?_⟩
    rw [exec_update_ok (s := s.answer r) hv hfits, State.absorb_answer]

theorem sameRegisters_answer (s : State) (r : List Byte) : SameRegisters s (s.answer r) :=
  ⟨rfl, rfl, rfl, rfl, rfl⟩

/-- Settles O29: FINAL does nothing but answer, and an answer changes neither what a later UPDATE does
nor a later digest. -/
theorem finalIsNonDestructive : Obligations.FinalIsNonDestructive := by
  unfold Obligations.FinalIsNonDestructive
  intro s hv
  refine ⟨s.finalDigest bheA, _, _, exec_final_ok hv, exec_final_answer hv _,
    sameRegisters_answer s _, rfl, rfl, rfl, rfl, fun data => ?_⟩
  obtain ⟨e, q, hvalid, hwithout, hafter⟩ :=
    exec_update_answer hv (digestResponse (s.finalDigest bheA)) data
  have hfinal := exec_final_answer (s := e.answer (digestResponse (s.finalDigest bheA))) hvalid q
  rw [State.finalDigest_answer] at hfinal
  exact ⟨_, _, _, _, _, hwithout, hafter, ⟨rfl, rfl, rfl, rfl, rfl⟩, exec_final_answer hvalid q,
    hfinal, rfl, rfl⟩

/-! ### The empty message (R88) -/

theorem State.validBytes_openContext (s : State) (s1 s2 : Word) :
    (s.openContext s1 s2).validBytes = [] := rfl

/-- INIT leaves no byte counted or valid, and the seeds in lanes 0 and 1 (R80). -/
theorem State.finalDigest_openContext (v : Variant) (s : State) (s1 s2 : Word) :
    (s.openContext s1 s2).finalDigest v = shortmix v [] s1 s2 := by
  obtain ⟨hlanes, -, -, htotal, -⟩ := s.openContext_fields s1 s2
  have hshort : (s.openContext s1 s2).totalLength.toNat < 96 := by rw [htotal]; decide
  rw [State.finalDigest_short v hshort, State.validBytes_openContext, hlanes]
  rfl

/-- Settles O30: FINAL's digest is that of the context INIT has just opened; the value for seeds (1, 2)
is computed. -/
theorem finalAfterInit : Obligations.FinalAfterInit := by
  unfold Obligations.FinalAfterInit
  refine ⟨fun key s hkey => ?_, by decide⟩
  refine ⟨_, _, exec_init_ok hkey s, exec_final_answer rfl _, ?_⟩
  rw [State.finalDigest_openContext]
  rfl

end Sys2Proof.Machine
end

section
/-! R30 and R103: the engine tracks its stream. UPDATE's effect turns the state that stands for a message
into the one that stands for the longer message; with that, every command and every event is answered as
the stream alone determines. -/

namespace Sys2Proof.Safety

open Sys2Proof.Machine Sys2Proof.Config

/-! ### The lanes of a longer message -/

/-- Below one block nothing is mixed yet: the lanes are primed and no more. -/
theorem blockLanes_of_lt (v : Variant) {msg : List Byte} (h : msg.length < 96) (s1 s2 : Word) :
    blockLanes v msg s1 s2 = prime v s1 s2 := by
  rw [blockLanes, Nat.div_eq_of_lt h, mixBlocks_zero]

/-- Appending to a message mixes the whole blocks of its tail followed by the new bytes. -/
theorem blockLanes_append (v : Variant) (msg data : List Byte) (s1 s2 : Word) :
    blockLanes v (msg ++ data) s1 s2 =
      mixBlocks v (blockLanes v msg s1 s2) (messageTail msg ++ data) 0
        ((msg.length % 96 + data.length) / 96) := by
  have hwhole : 96 * (msg.length / 96) ≤ msg.length := Nat.mul_div_le ..
  have htail : messageTail msg ++ data = (msg ++ data).drop (96 * (msg.length / 96)) :=
    (List.drop_append_of_le_length hwhole).symm
  have hcount : (msg.length + data.length) / 96 =
      msg.length / 96 + (msg.length % 96 + data.length) / 96 := by omega
  rw [blockLanes, blockLanes, List.length_append, hcount, mixBlocks_add,
    mixBlocks_append v ((Nat.zero_add _).trans_le hwhole), htail, mixBlocks_drop, Nat.zero_add,
    Nat.add_zero]

/-! ### The representation (R30) -/

variable {v : Variant} {g : Option Stream} {t : Stream} {s : State} {data : List Byte}

theorem Stream.lanes_of_lt (h : t.message.length < 96) : t.lanes v = rawLanes t.s1 t.s2 := if_pos h

theorem Stream.lanes_of_le (h : 96 ≤ t.message.length) :
    t.lanes v = blockLanes v t.message t.s1 t.s2 := if_neg (Nat.not_lt.mpr h)

/-- INIT leaves the state that stands for the empty message, whatever the state was (R80). -/
theorem represents_openContext (v : Variant) (s : State) (s1 s2 : Word) :
    Represents v ⟨s1, s2, []⟩ (s.openContext s1 s2) where
  context := rfl
  bounded := Nat.two_pow_pos 64
  totalLength := rfl
  pending := rfl
  bytes := nofun
  lanes := rfl

theorem Represents.answer (h : Represents v t s) (r : List Byte) : Represents v t (s.answer r) :=
  ⟨h.context, h.bounded, h.totalLength, h.pending, h.bytes, h.lanes⟩

theorem Represents.pending_lt (h : Represents v t s) : s.pending.toNat < 96 :=
  h.pending ▸ Nat.mod_lt _ (by decide)

theorem Represents.validBytes_eq (h : Represents v t s) : s.validBytes = messageTail t.message :=
  s.validBytes_eq (h.pending.trans (messageTail_length _).symm) h.bytes

/-- What PRIME leaves where FLUSH needs it: the block-primed lanes of the message so far (R83 step 1). -/
theorem Represents.primedLanes (h : Represents v t s) :
    (if s.totalLength.toNat < 96 then prime v s.h[0] s.h[1] else s.h) =
      blockLanes v t.message t.s1 t.s2 := by
  rw [h.totalLength]
  split_ifs with hlen
  · rw [blockLanes_of_lt v hlen, h.lanes, Stream.lanes_of_lt hlen]
    rfl
  · rw [h.lanes, Stream.lanes_of_le (Nat.le_of_not_lt hlen)]

/-- BUFFER completes no block, so the lanes of the longer message are those of the message (R82). -/
theorem Represents.bufferData (h : Represents v t s)
    (hfits : t.message.length + data.length < 2 ^ 64)
    (hp : s.pending.toNat + data.length < 96) :
    Represents v ⟨t.s1, t.s2, t.message ++ data⟩ (s.bufferData data) := by
  have hpending := h.pending
  obtain ⟨hpending', htotal'⟩ :=
    s.bufferData_counters hp (by rw [h.totalLength]; exact Nat.le_pred_of_lt hfits)
  have htail : messageTail (t.message ++ data) = messageTail t.message ++ data := by
    rw [messageTail_append, messageTail_of_lt]
    rw [List.length_append, messageTail_length, ← hpending]
    exact hp
  have hlength : (t.message ++ data).length = t.message.length + data.length := List.length_append
  refine ⟨h.context, hlength ▸ hfits, by rw [htotal', h.totalLength, hlength], ?_, ?_, ?_⟩
  · rw [hpending', hlength]
    omega
  · intro j hj
    rw [hpending'] at hj
    show (s.bufferData data).buf.read j = (messageTail (t.message ++ data))[j]?
    rw [State.bufferData_read, htail]
    split_ifs with hnew
    · rw [List.getElem?_append_right (by rw [messageTail_length]; omega), messageTail_length,
        hpending]
    · rw [List.getElem?_append_left (by rw [messageTail_length]; omega), h.bytes j (by omega)]
  · show s.h = _
    rw [h.lanes]
    rcases Nat.lt_or_ge t.message.length 96 with hshort | hlong
    · rw [Stream.lanes_of_lt hshort, Stream.lanes_of_lt (by rw [hlength]; omega)]
    · rw [Stream.lanes_of_le hlong, Stream.lanes_of_le (by rw [hlength]; omega),
        blockLanes_append, ← hpending, Nat.div_eq_of_lt hp, mixBlocks_zero]

/-- FLUSH mixes the whole blocks of the valid bytes followed by the payload and keeps what is left, which
is the block form of the longer message (R83). -/
theorem Represents.flushData (h : Represents v t s)
    (hfits : t.message.length + data.length < 2 ^ 64)
    (hl : 96 ≤ s.pending.toNat + data.length) :
    Represents v ⟨t.s1, t.s2, t.message ++ data⟩ (s.flushData v data) := by
  have hp := h.pending_lt
  have hpending := h.pending
  have hpending' := s.flushData_pending v hp hl
  have hlength : (t.message ++ data).length = t.message.length + data.length := List.length_append
  obtain ⟨hvalid, -⟩ := s.flushData_frame v data
  refine ⟨hvalid.trans h.context, hlength ▸ hfits, ?_, ?_, ?_, ?_⟩
  · rw [s.flushData_totalLength v (by rw [h.totalLength]; exact Nat.le_pred_of_lt hfits),
      h.totalLength, hlength]
  · rw [hpending', hlength]
    omega
  · intro j hj
    rw [hpending'] at hj
    rw [s.flushData_read v hp hl hj, h.validBytes_eq, ← messageTail_append]
  · rw [s.flushData_h v hp hl, h.primedLanes, h.validBytes_eq,
      Stream.lanes_of_le (by rw [hlength]; omega), blockLanes_append, hpending]

/-- UPDATE appends its payload to the message the state stands for (R30, R81). -/
theorem Represents.absorb (h : Represents v t s)
    (hfits : t.message.length + data.length < 2 ^ 64) :
    Represents v ⟨t.s1, t.s2, t.message ++ data⟩ (s.absorb v data) := by
  rcases Nat.lt_or_ge (s.pending.toNat + data.length) 96 with hbuffer | hflush
  · rw [s.absorb_buffer v hbuffer]
    exact h.bufferData hfits hbuffer
  · rw [s.absorb_flush v hflush]
    exact h.flushData hfits hflush

/-- FINAL's digest is DIGEST of the message the state stands for (R85, R100). -/
theorem Represents.finalDigest_eq (h : Represents v t s) :
    s.finalDigest v = digest v t.message t.s1 t.s2 := by
  have htotal := h.totalLength
  rcases Nat.lt_or_ge t.message.length 96 with hshort | hlong
  · rw [State.finalDigest_short v (htotal ▸ hshort), h.validBytes_eq, messageTail_of_lt hshort,
      h.lanes, Stream.lanes_of_lt hshort, digest, if_pos hshort]
    rfl
  · rw [State.finalDigest_block v (htotal ▸ hlong), h.validBytes_eq, h.lanes,
      Stream.lanes_of_le hlong, digest, if_neg (Nat.not_lt.mpr hlong)]

/-- UPDATE keeps the buffer's canonical form (R34). -/
theorem absorb_wf (v : Variant) (hm : Memory.wf s.buf) (hp : s.pending.toNat < 96)
    (data : List Byte) : Memory.wf (s.absorb v data).buf := by
  rcases Nat.lt_or_ge (s.pending.toNat + data.length) 96 with hbuffer | hflush
  · rw [s.absorb_buffer v hbuffer]
    exact s.bufferData_wf hm hbuffer.le
  · rw [s.absorb_flush v hflush]
    exact s.flushData_wf v hm hp hflush

/-! ### Serving a command and an event (R103) -/

/-- `Tracks` without the buffer's canonical form, which INIT from an arbitrary state does not give. -/
def Follows (v : Variant) : Option Stream → State → Prop
  | none, s => s.valid = false
  | some t, s => Represents v t s

theorem tracks_iff : Tracks v g s ↔ Memory.wf s.buf ∧ Follows v g s := by
  cases g <;> rfl

/-- From `s` the engine goes on to `s'`: it has added the responses `new`, the port holds `port`, and the
stream is `g` now. -/
structure Served (g : Option Stream) (new : List (List Byte)) (port : List PortEvent)
    (s s' : State) : Prop where
  stream : Follows bheA g s'
  form : Memory.wf s.buf → Memory.wf s'.buf
  port : s'.port = port
  responses : s'.responses = s.responses ++ new

theorem Served.trans {g' : Option Stream} {new new' : List (List Byte)}
    {port port' : List PortEvent} {s' s'' : State} (h : Served g new port s s')
    (h' : Served g' new' port' s' s'') : Served g' (new ++ new') port' s s'' where
  stream := h'.stream
  form hm := h'.form (h.form hm)
  port := h'.port
  responses := by rw [h'.responses, h.responses, List.append_assoc]

theorem Follows.takeEvent (h : Follows v g s) : Follows v g s.takeEvent := by
  cases g with
  | none => exact h
  | some t => exact ⟨h.context, h.bounded, h.totalLength, h.pending, h.bytes, h.lanes⟩

/-- A response that leaves the registers alone, a refusal or a digest, leaves the stream as it is. -/
theorem Follows.served_answer (h : Follows bheA g s) (r : List Byte) :
    Served g [r] s.port s (s.answer r) where
  stream := by
    cases g with
    | none => exact h
    | some t => exact Represents.answer h r
  form := id
  port := rfl
  responses := rfl

/-- A successful INIT begins a stream from any state: nothing of the old one is needed (R80). -/
theorem served_openContext (s : State) (s1 s2 : Word) :
    Served (some ⟨s1, s2, []⟩) [statusResponse .ok] s.port s
      ((s.openContext s1 s2).answer (statusResponse .ok)) :=
  ⟨(represents_openContext bheA s s1 s2).answer _, id, rfl, rfl⟩

/-- A successful UPDATE extends the stream (R81). -/
theorem Represents.served_absorb (h : Represents bheA t s)
    (hfits : t.message.length + data.length < 2 ^ 64) :
    Served (some ⟨t.s1, t.s2, t.message ++ data⟩) [statusResponse .ok] s.port s
      ((s.absorb bheA data).answer (statusResponse .ok)) := by
  obtain ⟨-, hport, hresponses⟩ := s.absorb_frame bheA data
  exact ⟨(h.absorb hfits).answer _, fun hm => absorb_wf bheA hm h.pending_lt data, hport,
    congrArg (· ++ [statusResponse .ok]) hresponses⟩

theorem Follows.exec_init (h : Follows bheA g s) (key : List Byte) :
    ∃ s', exec (.init key) s = .next s' ∧
      Served (followInstr g (.init key)) [owedByInstr bheA g (.init key)] s.port s s' := by
  rw [followInstr, owedByInstr]
  rcases Nat.lt_or_ge 16 key.length with hlong | hkey
  · rw [if_pos hlong, if_pos hlong]
    exact ⟨_, exec_init_keyTooLong hlong s, h.served_answer _⟩
  · rw [if_neg (Nat.not_lt.mpr hkey), if_neg (Nat.not_lt.mpr hkey)]
    exact ⟨_, exec_init_ok hkey s, served_openContext s _ _⟩

/-- UPDATE's checks read the flag and `totalLength`, which are the stream's existence and its length. -/
theorem Follows.exec_update (h : Follows bheA g s) (data : List Byte) :
    ∃ s', exec (.update data) s = .next s' ∧
      Served (followInstr g (.update data)) [owedByInstr bheA g (.update data)] s.port s s' := by
  cases g with
  | none => exact ⟨_, exec_update_noContext h data, h.served_answer _⟩
  | some t =>
    have hrep : Represents bheA t s := h
    have htotal := hrep.totalLength
    simp only [followInstr, owedByInstr]
    rcases Nat.lt_or_ge (2 ^ 64 - 1) (t.message.length + data.length) with hover | hfits
    · rw [if_pos hover, if_pos hover]
      exact ⟨_, exec_update_lenOverflow hrep.context (htotal ▸ hover), h.served_answer _⟩
    · rw [if_neg (Nat.not_lt.mpr hfits), if_neg (Nat.not_lt.mpr hfits)]
      exact ⟨_, exec_update_ok hrep.context (htotal ▸ hfits),
        hrep.served_absorb (Nat.lt_of_le_pred (by decide) hfits)⟩

theorem Follows.exec_final (h : Follows bheA g s) :
    ∃ s', exec .final s = .next s' ∧
      Served (followInstr g .final) [owedByInstr bheA g .final] s.port s s' := by
  cases g with
  | none => exact ⟨_, exec_final_noContext h, h.served_answer _⟩
  | some t =>
    have hrep : Represents bheA t s := h
    refine ⟨_, exec_final_ok hrep.context, ?_⟩
    rw [hrep.finalDigest_eq]
    exact h.served_answer _

theorem Follows.exec_oneshot (h : Follows bheA g s) (key message : List Byte) :
    ∃ s', exec (.oneshot key message) s = .next s' ∧
      Served (followInstr g (.oneshot key message)) [owedByInstr bheA g (.oneshot key message)]
        s.port s s' := by
  rw [followInstr, owedByInstr]
  rcases Nat.lt_or_ge 16 key.length with hlong | hkey
  · rw [if_pos hlong]
    exact ⟨_, exec_oneshot_keyTooLong hlong message s, h.served_answer _⟩
  · rw [if_neg (Nat.not_lt.mpr hkey)]
    exact ⟨_, exec_oneshot_ok hkey message s, h.served_answer _⟩

theorem Follows.exec (h : Follows bheA g s) (i : Instr) :
    ∃ s', exec i s = .next s' ∧
      Served (followInstr g i) [owedByInstr bheA g i] s.port s s' := by
  cases i with
  | init key => exact h.exec_init key
  | update data => exact h.exec_update data
  | final => exact h.exec_final
  | oneshot key message => exact h.exec_oneshot key message

/-- Reset ends the stream and is not answered (R132). -/
theorem served_applyReset (s : State) : Served none [] s.port s s.applyReset :=
  ⟨rfl, fun _ => ⟨List.Pairwise.nil, nofun⟩, rfl, (List.append_nil _).symm⟩

/-- What serves from the state whose oldest event has been taken serves that event. -/
theorem Served.of_takeEvent {new : List (List Byte)} {e : PortEvent} {rest : List PortEvent}
    {s' : State} (hport : s.port = e :: rest) (h : Served g new s.takeEvent.port s.takeEvent s') :
    Served g new rest s s' :=
  ⟨h.stream, h.form, h.port.trans (congrArg List.tail hport), h.responses⟩

/-- Every event at the port is served as the stream determines (R103, R110, R132). -/
theorem Follows.step (h : Follows bheA g s) {e : PortEvent} {rest : List PortEvent}
    (hport : s.port = e :: rest) :
    ∃ s', step s = .next s' ∧ Served (followEvent g e) (owedByEvent bheA g e) rest s s' := by
  cases e with
  | command frame =>
    cases hd : decode frame with
    | ok i =>
      obtain ⟨s', hexec, hserved⟩ := h.takeEvent.exec i
      simp only [followEvent, owedByEvent, hd]
      exact ⟨s', (step_command hport hd).trans hexec, hserved.of_takeEvent hport⟩
    | error r =>
      simp only [followEvent, owedByEvent, hd]
      exact ⟨_, step_rejected hport hd, (h.takeEvent.served_answer _).of_takeEvent hport⟩
  | reset => exact ⟨_, step_reset hport, (served_applyReset s.takeEvent).of_takeEvent hport⟩
  | resetDuring frame =>
    exact ⟨_, step_resetDuring hport, (served_applyReset s.takeEvent).of_takeEvent hport⟩

/-- Settles O47: the step serves the event, and serving keeps the buffer's canonical form. -/
theorem engineTracksStream : Obligations.EngineTracksStream := by
  unfold Obligations.EngineTracksStream
  intro g s e rest htracks hport
  obtain ⟨hform, hfollows⟩ := tracks_iff.mp htracks
  obtain ⟨t, hstep, hserved⟩ := hfollows.step hport
  exact ⟨t, hstep, hserved.port, tracks_iff.mpr ⟨hserved.form hform, hserved.stream⟩,
    hserved.responses⟩

end Sys2Proof.Safety
end

section
/-! R50 and R52: the frame of a well-formed command decodes to the command. A frame begins with its command
word, and the decoder is arithmetic on that word and cuts of the frame at fixed offsets. -/

namespace Sys2Proof

open Sys2Proof.Machine

theorem commandWordBytes_length (opc k : Nat) : (commandWordBytes opc k).length = 4 :=
  leBytes_length 4 _

theorem lenBytes_length (data : List Byte) : (lenBytes data).length = 8 := leBytes_length 8 _

/-- The value of the command word a frame begins with (R41). -/
theorem leNat_take_commandWord {opc k : Nat} (hopc : opc < 256) (hk : k < 32)
    (operands : List Byte) :
    leNat ((commandWordBytes opc k ++ operands).take 4) = opc + 256 * k := by
  rw [List.take_left' (commandWordBytes_length opc k), commandWordBytes, leNat_leBytes,
    Nat.mod_eq_of_lt]
  omega

/-- A LEN field carries every length that fits it (R43, R45). -/
theorem leNat_lenBytes {data : List Byte} (h : data.length < 2 ^ 64) :
    leNat (lenBytes data) = data.length := by
  rw [lenBytes, leNat_leBytes]
  exact Nat.mod_eq_of_lt h

/-- The cut of a byte string that begins after a first part of known length. -/
theorem slice_append_middle {p s t : List Byte} {i n : Nat} (hp : p.length = i)
    (hs : s.length = n) : slice (p ++ (s ++ t)) i n = s := by
  rw [slice_append_right hp, List.take_left' hs]

theorem decode_encode_init {key : List Byte} (hkey : key.length ≤ 16) :
    decode (encode (.init key)) = .ok (.init key) := by
  have hlen : (commandWordBytes 1 key.length ++ key).length = 4 + key.length := by
    rw [List.length_append, commandWordBytes_length]
  have hcut : slice (commandWordBytes 1 key.length ++ key) 4 key.length = key := by
    rw [slice_append_right (commandWordBytes_length ..), List.take_length]
  rw [encode, decode_eq hlen (leNat_take_commandWord (by decide) (by omega) key)
    (k := key.length) (by omega), hcut, if_neg (by omega), if_neg (by omega), if_pos (by omega),
    if_neg (by omega), if_neg (by omega)]

theorem decode_encode_update {data : List Byte} (hdata : data.length < 2 ^ 64) :
    decode (encode (.update data)) = .ok (.update data) := by
  have hcw := commandWordBytes_length 2 0
  have hlf := lenBytes_length data
  have hlen : (commandWordBytes 2 0 ++ (lenBytes data ++ data)).length = 12 + data.length := by
    rw [List.length_append, List.length_append, hcw, hlf, ← Nat.add_assoc]
  have hfield : leNat (slice (commandWordBytes 2 0 ++ (lenBytes data ++ data)) 4 8) =
      data.length := by
    rw [slice_append_middle hcw hlf, leNat_lenBytes hdata]
  have hpayload : (commandWordBytes 2 0 ++ (lenBytes data ++ data)).drop 12 = data := by
    rw [← List.append_assoc]
    exact List.drop_left' (by rw [List.length_append, hcw, hlf])
  rw [encode, List.append_assoc, decode_eq hlen
    (leNat_take_commandWord (by decide) (by decide) _) (k := 0) rfl, hfield, hpayload,
    if_neg (by omega), if_neg (by decide), if_neg (by decide), if_pos (by decide),
    if_neg (by decide), if_neg (by omega), if_neg (by omega)]

theorem decode_encode_final : decode (encode .final) = .ok .final := by decide

theorem decode_encode_oneshot {key message : List Byte} (hkey : key.length ≤ 16)
    (hmessage : message.length < 2 ^ 64) :
    decode (encode (.oneshot key message)) = .ok (.oneshot key message) := by
  have hcw := commandWordBytes_length 4 key.length
  have hlf := lenBytes_length message
  have hlen : (commandWordBytes 4 key.length ++ (key ++ (lenBytes message ++ message))).length =
      12 + key.length + message.length := by
    rw [List.length_append, List.length_append, List.length_append, hcw, hlf]
    omega
  have hcut : slice (commandWordBytes 4 key.length ++ (key ++ (lenBytes message ++ message))) 4
      key.length = key := slice_append_middle hcw rfl
  have hfield : leNat (slice (commandWordBytes 4 key.length ++
      (key ++ (lenBytes message ++ message))) (4 + key.length) 8) = message.length := by
    rw [← List.append_assoc, slice_append_middle (by rw [List.length_append, hcw]) hlf,
      leNat_lenBytes hmessage]
  have hpayload : (commandWordBytes 4 key.length ++ (key ++ (lenBytes message ++ message))).drop
      (12 + key.length) = message := by
    rw [← List.append_assoc, ← List.append_assoc]
    refine List.drop_left' ?_
    rw [List.length_append, List.length_append, hcw, hlf]
    omega
  rw [encode, List.append_assoc, List.append_assoc, decode_eq hlen
    (leNat_take_commandWord (by decide) (by omega) _) (k := key.length) (by omega), hcut, hfield,
    hpayload, if_neg (by omega), if_neg (by omega), if_neg (by omega), if_neg (by omega),
    if_neg (by omega), if_pos (by omega), if_neg (by omega), if_neg (by omega), if_neg (by omega)]

/-- Each well-formed command is read back from its frame (R52). -/
theorem decode_encode {i : Instr} (h : i.WellFormed) : decode (encode i) = .ok i := by
  cases i with
  | init key => exact decode_encode_init (of_decide_eq_true h)
  | update data => exact decode_encode_update (of_decide_eq_true h)
  | final => exact decode_encode_final
  | oneshot key message =>
    obtain ⟨hkey, hmessage⟩ := Bool.and_eq_true_iff.mp h
    exact decode_encode_oneshot (of_decide_eq_true hkey) (of_decide_eq_true hmessage)

end Sys2Proof
end

section
/-! R102 at the port. Serving one event after another gives the run: from INIT on the stream collects the
fragments, FINAL answers its DIGEST, and ONESHOT answers the same. -/

namespace Sys2Proof.Safety

open Sys2Proof.Machine Sys2Proof.Config

variable {g : Option Stream} {i : Instr} {s : State}

/-- A run over all the events at the port serves them in order (R39, R138). -/
theorem Follows.run (h : Follows bheA g s) {events : List PortEvent} (hport : s.port = events) :
    ∃ t, Host.Core.run Sys2Proof.core events.length s = .next t ∧
      Served (followEvents g events) (owedByEvents bheA g events) [] s t := by
  induction events generalizing g s with
  | nil => exact ⟨s, run_zero s, h, id, hport, (List.append_nil _).symm⟩
  | cons e rest ih =>
    obtain ⟨s', hstep, hserved⟩ := h.step hport
    obtain ⟨t, hrun, hrest⟩ := ih hserved.stream hserved.port
    exact ⟨t, (run_succ _ hstep).trans hrun, hserved.trans hrest⟩

/-- The event by which a host offers a command. -/
def framed (i : Instr) : PortEvent := .command (encode i)

theorem followEvent_framed (g : Option Stream) (h : i.WellFormed) :
    followEvent g (framed i) = followInstr g i := by
  simp only [followEvent, framed, decode_encode h]

theorem owedByEvent_framed (v : Variant) (g : Option Stream) (h : i.WellFormed) :
    owedByEvent v g (framed i) = [owedByInstr v g i] := by
  simp only [owedByEvent, framed, decode_encode h]

theorem owedByEvents_framed_cons (v : Variant) (g : Option Stream) (h : i.WellFormed)
    (rest : List PortEvent) :
    owedByEvents v g (framed i :: rest) =
      owedByInstr v g i :: owedByEvents v (followInstr g i) rest := by
  rw [owedByEvents, owedByEvent_framed v g h, followEvent_framed g h, List.singleton_append]

/-- UPDATEs that fit are each owed OK, and the events after them see the message with their bytes appended
(R81). -/
theorem owedByEvents_updates (v : Variant) (t : Stream) (fragments : List (List Byte))
    (hfits : t.message.length + fragments.flatten.length < 2 ^ 64) (rest : List PortEvent) :
    owedByEvents v (some t) (fragments.map (fun f => framed (.update f)) ++ rest) =
      List.replicate fragments.length (statusResponse .ok) ++
        owedByEvents v (some ⟨t.s1, t.s2, t.message ++ fragments.flatten⟩) rest := by
  induction fragments generalizing t with
  | nil => rw [List.flatten_nil, List.append_nil]; rfl
  | cons f fs ih =>
    rw [List.flatten_cons, List.length_append] at hfits
    have hf : ¬ 2 ^ 64 - 1 < t.message.length + f.length := by omega
    have hwf : (Instr.update f).WellFormed := decide_eq_true (by omega)
    have hfollow : followInstr (some t) (.update f) = some ⟨t.s1, t.s2, t.message ++ f⟩ := if_neg hf
    have howed : owedByInstr v (some t) (.update f) = statusResponse .ok := if_neg hf
    rw [List.map_cons, List.cons_append, owedByEvents_framed_cons v _ hwf, hfollow, howed,
      ih ⟨t.s1, t.s2, t.message ++ f⟩ (by rw [List.length_append]; omega), List.append_assoc,
      ← List.flatten_cons, List.length_cons, List.replicate_succ, List.cons_append]

theorem keyOfSeeds_length (s1 s2 : Word) : (keyOfSeeds s1 s2).length = 16 := by
  rw [keyOfSeeds, List.length_append, bytesLE64_length, bytesLE64_length]

theorem owedByInstr_oneshotSeeds (v : Variant) (g : Option Stream) (m : List Byte) (s1 s2 : Word) :
    owedByInstr v g (oneshotSeeds m s1 s2) = digestResponse (digest v m s1 s2) := by
  rw [oneshotSeeds, owedByInstr, if_neg (by rw [keyOfSeeds_length]; decide), seed1_keyOfSeeds,
    seed2_keyOfSeeds]

theorem exec_initSeeds (s : State) (s1 s2 : Word) :
    exec (initSeeds s1 s2) s = .next ((s.openContext s1 s2).answer (statusResponse .ok)) := by
  rw [initSeeds, exec_init_ok (keyOfSeeds_length s1 s2).le, seed1_keyOfSeeds, seed2_keyOfSeeds]

theorem exec_oneshotSeeds (m : List Byte) (s : State) (s1 s2 : Word) :
    exec (oneshotSeeds m s1 s2) s = .next (s.answer (digestResponse (digest bheA m s1 s2))) := by
  rw [oneshotSeeds, exec_oneshot_ok (keyOfSeeds_length s1 s2).le, seed1_keyOfSeeds,
    seed2_keyOfSeeds]

/-- INIT's frame at the port begins the stream of its seeds, from any state. -/
theorem step_initSeeds {s1 s2 : Word} {rest : List PortEvent}
    (hport : s.port = framed (initSeeds s1 s2) :: rest) :
    ∃ s', step s = .next s' ∧
      Served (some ⟨s1, s2, []⟩) [statusResponse .ok] rest s s' := by
  have hwf : (initSeeds s1 s2).WellFormed := decide_eq_true (keyOfSeeds_length s1 s2).le
  exact ⟨_, (step_command hport (decode_encode hwf)).trans (exec_initSeeds _ s1 s2),
    (served_openContext s.takeEvent s1 s2).of_takeEvent hport⟩

/-- After INIT: the fragments, FINAL and ONESHOT of the whole message are owed OK for each fragment and
the message's digest twice. -/
theorem owedByEvents_streaming (v : Variant) (s1 s2 : Word) {fragments : List (List Byte)}
    (hfits : fragments.flatten.length < 2 ^ 64) :
    owedByEvents v (some ⟨s1, s2, []⟩) (fragments.map (fun f => framed (.update f)) ++
        [framed .final, framed (oneshotSeeds fragments.flatten s1 s2)]) =
      List.replicate fragments.length (statusResponse .ok) ++
        [digestResponse (digest v fragments.flatten s1 s2),
          digestResponse (digest v fragments.flatten s1 s2)] := by
  have hwf : (oneshotSeeds fragments.flatten s1 s2).WellFormed :=
    Bool.and_eq_true_iff.mpr
      ⟨decide_eq_true (keyOfSeeds_length s1 s2).le, decide_eq_true hfits⟩
  have hall : ([] : List Byte).length + fragments.flatten.length < 2 ^ 64 :=
    (Nat.zero_add _).trans_lt hfits
  rw [owedByEvents_updates v ⟨s1, s2, []⟩ fragments hall, owedByEvents_framed_cons v _ rfl,
    owedByEvents_framed_cons v _ hwf, owedByInstr_oneshotSeeds]
  rfl

/-- Settles O50: INIT's step opens the stream, the run over the rest serves what it is owed. -/
theorem streamingEquivalenceAtThePort : Obligations.StreamingEquivalenceAtThePort := by
  unfold Obligations.StreamingEquivalenceAtThePort
  intro s s1 s2 fragments m hfits hport
  have hevents : (streaming fragments s1 s2 ++ [oneshotSeeds m s1 s2]).map framed =
      framed (initSeeds s1 s2) :: (fragments.map (fun f => framed (.update f)) ++
        [framed .final, framed (oneshotSeeds m s1 s2)]) := by
    simp [streaming, Function.comp_def]
  obtain ⟨s', hstep, hinit⟩ := step_initSeeds (hport.trans hevents)
  obtain ⟨t, hrun, hrest⟩ := Follows.run hinit.stream hinit.port
  rw [List.length_append, List.length_map] at hrun
  refine ⟨t, (run_succ _ hstep).trans hrun, ?_⟩
  rw [(hinit.trans hrest).responses, owedByEvents_streaming bheA s1 s2 hfits, List.replicate_succ,
    List.append_assoc]
  rfl

/-- Settles O53: ONESHOT answers DIGEST of the empty message, which is its SHORTMIX, and that is the
digest of the context INIT has just opened. -/
theorem emptyMessageDigestAgrees : Obligations.EmptyMessageDigestAgrees := by
  unfold Obligations.EmptyMessageDigestAgrees
  intro s s1 s2
  have hempty : digest bheA [] s1 s2 = shortmix bheA [] s1 s2 := if_pos (by decide)
  refine ⟨_, _, _, _, exec_oneshotSeeds [] s s1 s2, exec_initSeeds s s1 s2,
    exec_final_answer rfl _, rfl, ?_, by rw [hempty]⟩
  rw [State.finalDigest_openContext, hempty]
  rfl

end Sys2Proof.Safety
end

section
/-! R100: DIGEST over the blocks of the message in order. Two blocks with the same bytes are the same
block, so blocks given by their bytes are the ones DIGEST cuts and pads. -/

namespace Sys2Proof.Machine

open Sys2Proof.Config

/-- `n` blocks from block `k` on are the blocks numbered `k`, `k + 1`, … in this order (R100). -/
theorem mixBlocks_eq_foldl (v : Variant) (x : Lanes) (s : List Byte) (k n : Nat) :
    mixBlocks v x s (96 * k) n =
      (List.range' k n).foldl (fun x c => blockmix v x (blockAt s (96 * c))) x := by
  induction n generalizing k x with
  | zero => rw [mixBlocks_zero, List.range'_zero, List.foldl_nil]
  | succ n ih => rw [mixBlocks_succ, ← Nat.mul_succ, ih, List.range'_succ, List.foldl_cons]

/-- A block that lies inside a byte string holds the bytes of its cut (R13). -/
theorem blockAt_toList {s : List Byte} {off : Nat} (h : off + 96 ≤ s.length) :
    (blockAt s off).toList = slice s off 96 := by
  have hlen : (slice s off 96).length = 96 := by rw [slice_length]; omega
  apply List.ext_getElem (by rw [Vector.length_toList, hlen])
  intro j hj hj'
  rw [Vector.length_toList] at hj
  rw [Vector.getElem_toList, blockAt_getElem s off j hj, List.getD_eq_getElem _ 0 (by omega)]
  simp only [slice, List.getElem_take, List.getElem_drop]

/-- The tail of a message as the cut `M[96q .. n)` (R100). -/
theorem messageTail_eq_slice (msg : List Byte) :
    messageTail msg = slice msg (96 * (msg.length / 96)) (msg.length % 96) := by
  have hrest : msg.length % 96 = msg.length - 96 * (msg.length / 96) := by omega
  rw [hrest, slice_to_end, messageTail]

/-- The block-primed lanes as the fold over the message's blocks, given by their bytes. -/
theorem blockLanes_eq_foldl (v : Variant) (msg : List Byte) (s1 s2 : Word) {blk : Nat → Block}
    (hblk : ∀ k < msg.length / 96, (blk k).toList = slice msg (96 * k) 96) :
    blockLanes v msg s1 s2 =
      (List.range (msg.length / 96)).foldl (fun x k => blockmix v x (blk k)) (prime v s1 s2) := by
  rw [blockLanes, ← Nat.mul_zero 96, mixBlocks_eq_foldl, ← List.range_eq_range']
  refine List.foldl_ext _ _ _ fun x k hk => ?_
  have hk' : k < msg.length / 96 := List.mem_range.mp hk
  have hcut : blockAt msg (96 * k) = blk k :=
    Vector.toList_inj.mp ((blockAt_toList (by omega)).trans (hblk k hk').symm)
  rw [hcut]

/-- The final block of a message, given by its bytes (R86, R100). -/
theorem eq_finalBlock_messageTail {msg : List Byte} {fb : Block}
    (hfb : fb.toList = slice msg (96 * (msg.length / 96)) (msg.length % 96) ++
      List.replicate (95 - msg.length % 96) 0 ++ [BitVec.ofNat 8 (msg.length % 96)]) :
    fb = finalBlock (messageTail msg) := by
  have hlen := messageTail_length msg
  rw [← Vector.toList_inj, hfb, finalBlock_toList (by omega), hlen, messageTail_eq_slice]

/-- Settles O19: the block loop is the fold over the block numbers from 0, and the given blocks are the
ones DIGEST mixes. -/
theorem digestRunsByBlocks : Obligations.DigestRunsByBlocks := by
  unfold Obligations.DigestRunsByBlocks
  intro v msg s1 s2 n q p
  refine ⟨fun hshort => if_pos hshort, ?_⟩
  intro hlong blk fb hblk hfb x y
  have hlanes : blockLanes v msg s1 s2 = x := blockLanes_eq_foldl v msg s1 s2 hblk
  have hpad : fb = finalBlock (messageTail msg) := eq_finalBlock_messageTail hfb
  rw [digest, if_neg (Nat.not_lt.mpr hlong), finalMix_eq, hlanes, ← hpad]

end Sys2Proof.Machine
end

section
/-! R111 to R113: the decoder's three causes of a rejection, in numbers read off the frame, and the
response a rejected frame gets (R110); and the keys that the decoder lets pass. -/

namespace Sys2Proof.Machine

/-- The cause of each rejection, in the frame's length and its fields as numbers (R111 to R113). -/
def RejectCause (frame : List Byte) : Reject → Prop :=
  let cw := leNat (frame.take 4)
  let opc := cw % 2 ^ 8
  let klen := cw / 2 ^ 8 % 2 ^ 5
  let n := frame.length
  fun
  | .illegalCmd => 4 ≤ n ∧ (cw / 2 ^ 13 ≠ 0 ∨ opc ∉ [1, 2, 3, 4] ∨ (opc ∈ [2, 3] ∧ klen ≠ 0))
  | .keyTooLong => 4 ≤ n ∧ cw / 2 ^ 13 = 0 ∧ opc ∈ [1, 4] ∧ 16 < klen
  | .badFrame =>
    n < 4 ∨ (cw / 2 ^ 13 = 0 ∧
      ((opc = 1 ∧ klen ≤ 16 ∧ n ≠ 4 + klen) ∨
       (opc = 3 ∧ klen = 0 ∧ n ≠ 4) ∨
       (opc = 2 ∧ klen = 0 ∧ (n < 12 ∨ n ≠ 12 + leNat (slice frame 4 8))) ∨
       (opc = 4 ∧ klen ≤ 16 ∧ (n < 12 + klen ∨ n ≠ 12 + klen + leNat (slice frame (4 + klen) 8)))))

/-- The checks of R50 in their order reject for the causes of R111 to R113 and for no other: once the
opcode has chosen the decoder's path, what is left is a comparison of numbers. -/
theorem decode_error_iff (frame : List Byte) (r : Reject) :
    decode frame = .error r ↔ RejectCause frame r := by
  have hopcode : leNat (frame.take 4) % 256 = 1 ∨ leNat (frame.take 4) % 256 = 2 ∨
      leNat (frame.take 4) % 256 = 3 ∨ leNat (frame.take 4) % 256 = 4 ∨
      leNat (frame.take 4) % 256 = 0 ∨ 4 < leNat (frame.take 4) % 256 := by omega
  rw [decode_eq rfl rfl rfl, ite_eq_iff, ite_eq_iff]
  rcases hopcode with hinit | hupdate | hfinal | honeshot | hreserved
  case' inl => rw [if_pos hinit]
  case' inr.inl => rw [if_neg (by omega), if_pos hupdate]
  case' inr.inr.inl => rw [if_neg (by omega), if_neg (by omega), if_pos hfinal]
  case' inr.inr.inr.inl =>
    rw [if_neg (by omega), if_neg (by omega), if_neg (by omega), if_pos honeshot]
  case' inr.inr.inr.inr =>
    rw [if_neg (by omega), if_neg (by omega), if_neg (by omega), if_neg (by omega)]
  all_goals
    cases r <;> simp only [RejectCause, ite_eq_iff, Except.error.injEq, reduceCtorEq, and_true,
      and_false, or_false, false_or, false_iff, List.mem_cons, List.not_mem_nil, Nat.reducePow]
  all_goals omega

/-- A check of the decoder passes, and so do the checks after it. -/
theorem ite_error_ok_iff {c : Prop} [Decidable c] {cause : Reject} {later : Except Reject Instr}
    {i : Instr} : (if c then .error cause else later) = .ok i ↔ ¬ c ∧ later = .ok i := by
  simp only [ite_eq_iff, reduceCtorEq, and_false, false_or]

/-- The decoder lets no key of more than 16 bytes pass (R50 step 6). -/
theorem keyLength_le_of_decode {frame : List Byte} {i : Instr} (hd : decode frame = .ok i) :
    Laws.FrameShape.keyLength i ≤ 16 := by
  have hcut : ∀ k : Nat, (slice frame 4 k).length ≤ k := fun k =>
    (slice_length frame 4 k).trans_le (Nat.min_le_left ..)
  rw [decode_eq rfl rfl rfl, ite_error_ok_iff, ite_error_ok_iff] at hd
  obtain ⟨-, -, hd⟩ := hd
  by_cases hinit : leNat (frame.take 4) % 256 = 1
  · rw [if_pos hinit, ite_error_ok_iff, ite_error_ok_iff] at hd
    obtain ⟨hfits, -, ⟨⟩⟩ := hd
    exact (hcut _).trans (Nat.le_of_not_lt hfits)
  rw [if_neg hinit] at hd
  by_cases hupdate : leNat (frame.take 4) % 256 = 2
  · rw [if_pos hupdate, ite_error_ok_iff, ite_error_ok_iff, ite_error_ok_iff] at hd
    obtain ⟨-, -, -, ⟨⟩⟩ := hd
    exact Nat.zero_le 16
  rw [if_neg hupdate] at hd
  by_cases hfinal : leNat (frame.take 4) % 256 = 3
  · rw [if_pos hfinal, ite_error_ok_iff, ite_error_ok_iff] at hd
    obtain ⟨-, -, ⟨⟩⟩ := hd
    exact Nat.zero_le 16
  rw [if_neg hfinal] at hd
  by_cases honeshot : leNat (frame.take 4) % 256 = 4
  · rw [if_pos honeshot, ite_error_ok_iff, ite_error_ok_iff, ite_error_ok_iff] at hd
    obtain ⟨hfits, -, -, ⟨⟩⟩ := hd
    exact (hcut _).trans (Nat.le_of_not_lt hfits)
  rw [if_neg honeshot] at hd
  cases hd

/-- A rejected frame is taken from the port and answered by its status byte; nothing else changes
(R50, R110). -/
theorem step_eq_of_rejected {s : State} {frame : List Byte} {rest : List PortEvent} {r : Reject}
    (hport : s.port = .command frame :: rest) (hd : decode frame = .error r) :
    step s = .next { s with
      port := rest, responses := s.responses ++ [[statusCode (rejectStatus r)]] } := by
  have htaken : s.takeEvent = { s with port := rest } := by
    rw [State.takeEvent, State.setPort, hport, List.tail_cons]
  rw [step_rejected hport hd, htaken]
  rfl

/-- Settles O3: the decoder's cause for ILLEGAL_CMD, and the step on a rejected frame. -/
theorem illegalCommandCause : Obligations.IllegalCommandCause := by
  unfold Obligations.IllegalCommandCause
  exact fun frame => ⟨decode_error_iff frame .illegalCmd, fun hd _ _ hport =>
    step_eq_of_rejected hport hd⟩

/-- Settles O4: the decoder's cause for KEY_TOO_LONG, and the step on a rejected frame. -/
theorem keyTooLongCause : Obligations.KeyTooLongCause := by
  unfold Obligations.KeyTooLongCause
  exact fun frame => ⟨decode_error_iff frame .keyTooLong, fun hd _ _ hport =>
    step_eq_of_rejected hport hd⟩

/-- Settles O5: the decoder's cause for BAD_FRAME, and the step on a rejected frame. -/
theorem badFrameCause : Obligations.BadFrameCause := by
  unfold Obligations.BadFrameCause
  exact fun frame => ⟨decode_error_iff frame .badFrame, fun hd _ _ hport =>
    step_eq_of_rejected hport hd⟩

end Sys2Proof.Machine
end

section
/-! R114, R115 and R121: when a command is refused for the state it meets, and when it completes. -/

namespace Sys2Proof.Machine

open Sys2Proof.Config Sys2Proof.Laws

variable {s : State}

/-! ### NO_CONTEXT (R114) -/

/-- INIT reports OK or KEY_TOO_LONG, with a context or without one (R80, R114). -/
theorem exec_init_not_noContext (key : List Byte) (s : State) :
    AnswersOnce s (· ≠ [0x04]) (exec (.init key) s) := by
  rcases Nat.lt_or_ge 16 key.length with hlong | hfits
  · rw [exec_init_keyTooLong hlong]
    exact answersOnce_answer (by decide) rfl
  · rw [exec_init_ok hfits]
    exact answersOnce_answer (by decide) rfl

/-- ONESHOT reports OK or KEY_TOO_LONG, with a context or without one (R101, R114). -/
theorem exec_oneshot_not_noContext (key message : List Byte) (s : State) :
    AnswersOnce s (· ≠ [0x04]) (exec (.oneshot key message) s) := by
  rcases Nat.lt_or_ge 16 key.length with hlong | hfits
  · rw [exec_oneshot_keyTooLong hlong]
    exact answersOnce_answer (by decide) rfl
  · rw [exec_oneshot_ok hfits, digestResponse_eq]
    exact answersOnce_answer (fun h => absurd (List.cons.inj h).1 (by decide)) rfl

/-- A command that answers otherwise than `r` reaches no next state whose new response is `r`. -/
theorem AnswersOnce.responses_ne {r : List Byte} {o : Host.Outcome State Fault Refusal}
    (h : AnswersOnce s (· ≠ r) o) {t : State} (ht : o = .next t) :
    t.responses ≠ s.responses ++ [r] := by
  obtain ⟨t', r', rfl, hadded, hne⟩ := h
  obtain rfl : t' = t := Host.Outcome.next.inj ht
  rw [hadded]
  exact fun heq => hne (List.singleton_inj.mp (List.append_cancel_left heq))

/-- Settles O33: FINAL and UPDATE test the context first; no answer of INIT or ONESHOT is 04. -/
theorem noContextRefusals : Obligations.NoContextRefusals := by
  unfold Obligations.NoContextRefusals
  refine ⟨fun s data hv => ⟨exec_final_noContext hv, exec_update_noContext hv data⟩, ?_⟩
  rintro s t key message (hinit | honeshot)
  · exact (exec_init_not_noContext key s).responses_ne hinit
  · exact (exec_oneshot_not_noContext key message s).responses_ne honeshot

/-! ### LEN_OVERFLOW (R115) -/

/-- UPDATE counts its bytes on both of its branches (R82, R83). -/
theorem State.absorb_totalLength (v : Variant) {data : List Byte}
    (ho : s.totalLength.toNat + data.length ≤ 2 ^ 64 - 1) :
    (s.absorb v data).totalLength.toNat = s.totalLength.toNat + data.length := by
  rcases Nat.lt_or_ge (s.pending.toNat + data.length) 96 with hbuffer | hflush
  · obtain ⟨-, htotal⟩ := s.bufferData_counters hbuffer ho
    rw [s.absorb_buffer v hbuffer, htotal]
  · rw [s.absorb_flush v hflush, s.flushData_totalLength v ho]

/-- Settles O34: a refusal is an answer and nothing else, so FINAL's digest after it is the one before
it; an accepted UPDATE counts its bytes. -/
theorem lengthOverflowIsRefused : Obligations.LengthOverflowIsRefused := by
  unfold Obligations.LengthOverflowIsRefused
  refine fun s data hv => ⟨fun hover => ?_, fun hfits => ?_⟩
  · exact ⟨_, exec_update_lenOverflow hv hover, rfl, s.finalDigest bheA, _, _, exec_final_ok hv,
      exec_final_answer hv _, rfl, rfl⟩
  · obtain ⟨hvalid, -, hresponses⟩ := s.absorb_frame bheA data
    exact ⟨_, exec_update_ok hv hfits, s.absorb_totalLength bheA hfits, hvalid.trans hv,
      congrArg (· ++ [[0x00]]) hresponses⟩

/-! ### The contract (R121) -/

/-- Both forms of a completion begin with the OK byte (R46). -/
theorem completionForm_head {r : List Byte} {i : Instr} (h : CompletionForm r i) :
    ∃ payload, r = 0x00 :: payload := by
  cases i with
  | init _ | update _ => exact ⟨[], h⟩
  | final | oneshot _ _ =>
    obtain ⟨d, hdigest⟩ := h
    exact ⟨_, hdigest.trans (digestResponse_eq d)⟩

/-- A command whose key fits completes, where a context stands if it needs one and its bytes can be
counted. -/
theorem exec_completes {i : Instr} (hkey : FrameShape.keyLength i ≤ 16)
    (hcontext : s.valid = true ∨ (∃ key, i = .init key) ∨ ∃ key message, i = .oneshot key message)
    (hcount : ∀ data, i = .update data → s.totalLength.toNat + data.length < 2 ^ 64) :
    AnswersOnce s (CompletionForm · i) (exec i s) := by
  cases i with
  | init key =>
    rw [exec_init_ok hkey]
    exact answersOnce_answer rfl rfl
  | update data =>
    have hv : s.valid = true := by simpa using hcontext
    obtain ⟨-, -, hresponses⟩ := s.absorb_frame bheA data
    rw [exec_update_ok hv (Nat.le_pred_of_lt (hcount data rfl))]
    exact answersOnce_answer rfl hresponses
  | final =>
    have hv : s.valid = true := by simpa using hcontext
    rw [exec_final_ok hv]
    exact answersOnce_answer ⟨_, rfl⟩ rfl
  | oneshot key message =>
    rw [exec_oneshot_ok hkey]
    exact answersOnce_answer ⟨_, rfl⟩ rfl

/-- Settles O40: the step runs the decoded command, whose key the decoder has checked, and a completion
begins with OK. -/
theorem totalInsideTheContract : Obligations.TotalInsideTheContract := by
  unfold Obligations.TotalInsideTheContract
  intro s frame rest i hport hd hcontext hcount
  obtain ⟨t, r, hexec, hadded, hform⟩ :=
    exec_completes (s := s.takeEvent) (keyLength_le_of_decode hd) hcontext hcount
  obtain ⟨payload, rfl⟩ := completionForm_head hform
  exact ⟨t, payload, (step_command hport hd).trans hexec, hadded⟩

end Sys2Proof.Machine
end

section
/-! R132: a reset event, whether it comes between commands or cuts one short, has one effect. -/

namespace Sys2Proof.Machine

variable {s : State} {rest : List PortEvent}

/-- A buffer without a known byte is in canonical form, whatever the buffer held before. -/
theorem State.applyReset_buf_wf (s : State) : Memory.wf s.applyReset.buf := by
  obtain ⟨-, hbuf, -, -, -⟩ := s.applyReset_fields
  rw [hbuf]
  exact ⟨List.Pairwise.nil, nofun⟩

/-- The step does not look at the frame of the command that a reset cuts short. -/
theorem step_resetEvent
    (hport : s.port = .reset :: rest ∨ ∃ frame, s.port = .resetDuring frame :: rest) :
    step s = .next s.takeEvent.applyReset := by
  obtain hbetween | ⟨frame, hduring⟩ := hport
  · exact step_reset hbetween
  · exact step_resetDuring hduring

theorem takeEvent_port_of_resetEvent
    (hport : s.port = .reset :: rest ∨ ∃ frame, s.port = .resetDuring frame :: rest) :
    s.takeEvent.port = rest := by
  obtain hbetween | ⟨frame, hduring⟩ := hport
  · rw [State.takeEvent_port, hbetween, List.tail_cons]
  · rw [State.takeEvent_port, hduring, List.tail_cons]

/-- Settles O43: the step takes the event and applies the reset, which clears `valid` and the buffer and
leaves the port and the responses alone. -/
theorem resetEndsContext : Obligations.ResetEndsContext := by
  unfold Obligations.ResetEndsContext
  intro s rest hport
  obtain ⟨hvalid, -, hkeepsPort, hresponses, -⟩ := s.takeEvent.applyReset_fields
  exact ⟨_, step_resetEvent hport, hvalid, hresponses,
    hkeepsPort.trans (takeEvent_port_of_resetEvent hport), s.takeEvent.applyReset_buf_wf⟩

end Sys2Proof.Machine
end

section
/-! What a command and a step can do, said once; and the claims that are a command's or a step's own
equation. -/

namespace Sys2Proof.Machine

open Sys2Proof.Config Sys2Proof.Safety

/-! ### The commands -/

/-- Every command is refused, opens a context, absorbs a payload, or answers a digest; the answer is the
last thing it does (R80, R81, R85, R101, R110). -/
theorem exec_cases (i : Instr) (s : State) :
    (∃ st, st ≠ .ok ∧ exec i s = .next (s.refuse st)) ∨
    (∃ key, i = .init key ∧ key.length ≤ 16 ∧ exec i s =
      .next ((s.openContext (seed1 key) (seed2 key)).answer (statusResponse .ok))) ∨
    (∃ data, i = .update data ∧ s.valid = true ∧
      s.totalLength.toNat + data.length ≤ 2 ^ 64 - 1 ∧
      exec i s = .next ((s.absorb bheA data).answer (statusResponse .ok))) ∨
    (∃ d, exec i s = .next (s.answer (digestResponse d))) := by
  cases i with
  | init key =>
    rcases Nat.lt_or_ge 16 key.length with hlong | hfits
    · exact .inl ⟨_, by decide, exec_init_keyTooLong hlong s⟩
    · exact .inr (.inl ⟨key, rfl, hfits, exec_init_ok hfits s⟩)
  | update data =>
    cases hv : s.valid with
    | false => exact .inl ⟨_, by decide, exec_update_noContext hv data⟩
    | true =>
      rcases Nat.lt_or_ge (2 ^ 64 - 1) (s.totalLength.toNat + data.length) with hover | hfits
      · exact .inl ⟨_, by decide, exec_update_lenOverflow hv hover⟩
      · exact .inr (.inr (.inl ⟨data, rfl, rfl, hfits, exec_update_ok hv hfits⟩))
  | final =>
    cases hv : s.valid with
    | false => exact .inl ⟨_, by decide, exec_final_noContext hv⟩
    | true => exact .inr (.inr (.inr ⟨_, exec_final_ok hv⟩))
  | oneshot key message =>
    rcases Nat.lt_or_ge 16 key.length with hlong | hfits
    · exact .inl ⟨_, by decide, exec_oneshot_keyTooLong hlong message s⟩
    · exact .inr (.inr (.inr ⟨_, exec_oneshot_ok hfits message s⟩))

theorem statusCode_ne_zero {st : Status} (h : st ≠ .ok) : statusCode st ≠ 0x00 := by
  cases st with
  | ok => exact absurd rfl h
  | illegalCmd | keyTooLong | badFrame | noContext | lenOverflow => decide

/-- Settles O22: the registers INIT writes and the response it adds are those of the record. -/
theorem initOpensContext : Obligations.InitOpensContext := by
  unfold Obligations.InitOpensContext
  exact fun _ s hkey => exec_init_ok hkey s

/-- Settles O23: the contexts INIT opens with one key are alike, and so they stay with one answer. -/
theorem initForgetsTheOldContext : Obligations.InitForgetsTheOldContext := by
  unfold Obligations.InitForgetsTheOldContext
  exact fun _ s t hkey =>
    ⟨_, _, exec_init_ok hkey s, exec_init_ok hkey t, (alike_openContext s t _ _).answer _⟩

/-- Settles O27: below one block FINAL's digest is SHORTMIX of the valid bytes. -/
theorem finalTakesShortPath : Obligations.FinalTakesShortPath := by
  unfold Obligations.FinalTakesShortPath
  intro s hv hshort d
  rw [exec_final_ok hv, State.finalDigest_short bheA hshort, digestResponse_eq]
  rfl

/-- Settles O31: ONESHOT only answers, and its response is the digest's. -/
theorem oneshotAnswersDigest : Obligations.OneshotAnswersDigest := by
  unfold Obligations.OneshotAnswersDigest
  intro key message s hkey d
  rw [exec_oneshot_ok hkey, digestResponse_eq]
  rfl

/-- Settles O32: the key's length is tested before anything else. -/
theorem longKeyIsRefused : Obligations.LongKeyIsRefused := by
  unfold Obligations.LongKeyIsRefused
  exact fun _ message s hlong =>
    ⟨exec_init_keyTooLong hlong s, exec_oneshot_keyTooLong hlong message s⟩

/-! ### The step -/

theorem takeEvent_eq {s : State} {e : PortEvent} {rest : List PortEvent} (h : s.port = e :: rest) :
    s.takeEvent = { s with port := rest } := by
  rw [State.takeEvent, State.setPort, h, List.tail_cons]

/-- A reset, between commands or in place of one (R132). -/
def IsReset (e : PortEvent) : Prop := e = .reset ∨ ∃ frame, e = .resetDuring frame

/-- A step is idle, runs a decoded command, rejects a frame, or applies a reset (R39, R50, R125, R132). -/
theorem step_cases (s : State) :
    (s.port = [] ∧ step s = .next s) ∨
    (∃ frame rest i, s.port = .command frame :: rest ∧ decode frame = .ok i ∧
      step s = exec i s.takeEvent) ∨
    (∃ frame rest r, s.port = .command frame :: rest ∧ decode frame = .error r ∧
      step s = .next (s.takeEvent.rejectFrame r)) ∨
    (∃ e rest, s.port = e :: rest ∧ IsReset e ∧ step s = .next s.takeEvent.applyReset) := by
  cases hport : s.port with
  | nil => exact .inl ⟨rfl, step_idle hport⟩
  | cons e rest =>
    cases e with
    | command frame =>
      cases hd : decode frame with
      | ok i => exact .inr (.inl ⟨frame, rest, i, rfl, hd, step_command hport hd⟩)
      | error r => exact .inr (.inr (.inl ⟨frame, rest, r, rfl, hd, step_rejected hport hd⟩))
    | reset => exact .inr (.inr (.inr ⟨_, rest, rfl, .inl rfl, step_reset hport⟩))
    | resetDuring frame =>
      exact .inr (.inr (.inr ⟨_, rest, rfl, .inr ⟨frame, rfl⟩, step_resetDuring hport⟩))

theorem exec_next (i : Instr) (s : State) : ∃ t, exec i s = .next t := by
  obtain ⟨_, -, h⟩ | ⟨_, -, -, h⟩ | ⟨_, -, -, -, h⟩ | ⟨_, h⟩ := exec_cases i s <;> exact ⟨_, h⟩

/-- Settles O41: in each of its cases the step answers a next state. -/
theorem stepAlwaysAnswers : Obligations.StepAlwaysAnswers := by
  unfold Obligations.StepAlwaysAnswers
  intro s
  obtain ⟨-, hidle⟩ | ⟨_, _, i, -, -, hrun⟩ | ⟨_, _, _, -, -, hreject⟩ | ⟨_, _, -, -, hreset⟩ :=
    step_cases s
  · exact ⟨s, hidle⟩
  · exact hrun ▸ exec_next i s.takeEvent
  · exact ⟨_, hreject⟩
  · exact ⟨_, hreset⟩

/-- Settles O42: the step's equation for an empty port. -/
theorem idleHoldsState : Obligations.IdleHoldsState := by
  unfold Obligations.IdleHoldsState
  exact fun _ hport => step_idle hport

/-- Settles O35: the step's equation for a frame that decodes. -/
theorem stepRunsDecodedCommand : Obligations.StepRunsDecodedCommand := by
  unfold Obligations.StepRunsDecodedCommand
  intro s frame rest i hport hd
  rw [step_command hport hd, takeEvent_eq hport]

/-- Settles O36: the step on a rejected frame, with the status byte of each rejection. -/
theorem stepAnswersRejection : Obligations.StepAnswersRejection := by
  unfold Obligations.StepAnswersRejection
  intro s frame rest r hport hd
  rw [step_eq_of_rejected hport hd]
  cases r <;> rfl

/-- Settles O9: the word's frame is the oldest event, and taking it leaves the state as it was. -/
theorem fetchWordRuns : Obligations.FetchWordRuns := by
  unfold Obligations.FetchWordRuns
  intro s nbits w i hword
  have hd : decode (frameOfTableWord nbits w) = .ok i := by
    rw [decodeTableWord] at hword
    split at hword
    next hok => rw [hok, Option.some.inj hword]
    next => cases hword
  rw [State.withFetchWord, step_command (s.offerFirst_port _) hd, State.takeEvent_offerFirst]

/-- Settles O39: the decoder reports the first cause in its order, and an UPDATE whose frame it accepts
tests the context before the count. -/
theorem earlierCauseWins : Obligations.EarlierCauseWins := by
  unfold Obligations.EarlierCauseWins
  refine fun s rest => ⟨fun hport => ?_, fun hport => ?_, fun hport _ => ?_,
    fun data hfits _ hport hv => ?_⟩
  · exact step_eq_of_rejected (r := .illegalCmd) hport (by decide)
  · exact step_eq_of_rejected (r := .keyTooLong) hport (by decide)
  · exact step_eq_of_rejected (r := .badFrame) hport (by decide)
  · rw [step_command hport (decode_encode_update hfits),
      exec_update_noContext (s := s.takeEvent) hv, takeEvent_eq hport]
    rfl

/-- A command completes with 00 first, or answers one other byte and leaves every register (R110). -/
theorem exec_completes_or_refuses (i : Instr) (s : State) :
    ∃ t r, exec i s = .next t ∧ t.port = s.port ∧ t.responses = s.responses ++ [r] ∧
      (r.head? = some 0x00 ∨ (∃ c : Byte, c ≠ 0x00 ∧ r = [c]) ∧ SameRegisters s t) := by
  obtain ⟨st, hst, h⟩ | ⟨key, -, -, h⟩ | ⟨data, -, -, -, h⟩ | ⟨d, h⟩ := exec_cases i s
  · exact ⟨_, _, h, rfl, rfl, .inr ⟨⟨_, statusCode_ne_zero hst, rfl⟩, sameRegisters_answer s _⟩⟩
  · exact ⟨_, _, h, rfl, rfl, .inl rfl⟩
  · obtain ⟨-, hport, hresponses⟩ := s.absorb_frame bheA data
    exact ⟨_, _, h, hport, congrArg (· ++ [statusResponse .ok]) hresponses, .inl rfl⟩
  · exact ⟨_, _, h, rfl, rfl, .inl rfl⟩

/-- Settles O37: taking the event changes no register, and a rejected frame is refused as a command is. -/
theorem refusalsChangeNothing : Obligations.RefusalsChangeNothing := by
  unfold Obligations.RefusalsChangeNothing
  intro s frame rest hport
  have htaken : s.takeEvent.port = rest := by rw [State.takeEvent_port, hport, List.tail_cons]
  cases hd : decode frame with
  | ok i =>
    obtain ⟨t, r, hexec, hkeeps, hadded, hform⟩ := exec_completes_or_refuses i s.takeEvent
    refine ⟨t, r, (step_command hport hd).trans hexec, hkeeps.trans htaken, hadded, ?_⟩
    exact hform.imp_right fun ⟨hbyte, ⟨hh, hbuf, hpending, htotal, hvalid⟩⟩ =>
      ⟨hbyte, hh, hbuf, hpending, htotal, hvalid⟩
  | error cause =>
    exact ⟨_, _, step_rejected hport hd, htaken, rfl,
      .inr ⟨⟨_, statusCode_ne_zero (rejectStatus_ne_ok cause), rfl⟩, rfl, rfl, rfl, rfl, rfl⟩⟩

/-- Only INIT moves the flag among the commands, and it sets it (R25). -/
theorem exec_valid {i : Instr} {s t : State} (h : exec i s = .next t) :
    t.valid = s.valid ∨ t.valid = true ∧ ∃ key, i = .init key ∧ key.length ≤ 16 := by
  obtain ⟨_, -, hexec⟩ | ⟨key, hi, hkey, hexec⟩ | ⟨data, -, -, -, hexec⟩ | ⟨_, hexec⟩ := exec_cases i s
  all_goals obtain rfl := Host.Outcome.next.inj (hexec.symm.trans h)
  · exact .inl rfl
  · exact .inr ⟨rfl, key, hi, hkey⟩
  · exact .inl (s.absorb_frame bheA data).1
  · exact .inl rfl

/-- Settles O44: of the step's cases only a reset clears the flag and only INIT sets it. -/
theorem onlyInitAndResetMoveValid : Obligations.OnlyInitAndResetMoveValid := by
  unfold Obligations.OnlyInitAndResetMoveValid
  intro s t hstep hmoved
  obtain ⟨-, hidle⟩ | ⟨frame, rest, i, hport, hd, hrun⟩ | ⟨_, _, _, -, -, hreject⟩ |
    ⟨e, rest, hport, he, hreset⟩ := step_cases s
  · obtain rfl := Host.Outcome.next.inj (hidle.symm.trans hstep)
    exact absurd rfl hmoved
  · obtain hkept | ⟨hset, key, rfl, hkey⟩ := exec_valid (hrun.symm.trans hstep)
    · exact absurd hkept hmoved
    · exact .inr ⟨hset, frame, rest, key, hport, hd, hkey⟩
  · obtain rfl := Host.Outcome.next.inj (hreject.symm.trans hstep)
    exact absurd rfl hmoved
  · obtain rfl := Host.Outcome.next.inj (hreset.symm.trans hstep)
    exact .inl ⟨rfl, e, rest, hport, he⟩

end Sys2Proof.Machine
end

section
/-! The invariant of the machine state (R21 to R23, R30, R34): every operation keeps it, so every step
does; and what it says of UPDATE, that cutting a payload in two changes nothing (R81). -/

namespace Sys2Proof.Safety

open Sys2Proof.Machine Sys2Proof.Config

variable {s : State} {data : List Byte}

/-! ### The operations keep the invariant -/

/-- Without a context only the buffer's form is required. -/
theorem inv_of_noContext (hform : Memory.wf s.buf) (hv : s.valid = false) : Inv s where
  bufForm := hform
  pendingBound h := absurd (hv.symm.trans h) (by decide)
  counters h := absurd (hv.symm.trans h) (by decide)
  validListed h := absurd (hv.symm.trans h) (by decide)
  rawForm h := absurd (hv.symm.trans h) (by decide)

theorem Inv.takeEvent (h : Inv s) : Inv s.takeEvent :=
  ⟨h.bufForm, h.pendingBound, h.counters, h.validListed, h.rawForm⟩

/-- An answer, and so a refusal, writes no register. -/
theorem Inv.answer (h : Inv s) (r : List Byte) : Inv (s.answer r) :=
  ⟨h.bufForm, h.pendingBound, h.counters, h.validListed, h.rawForm⟩

theorem inv_applyReset (s : State) : Inv s.applyReset :=
  inv_of_noContext s.applyReset_buf_wf rfl

/-- INIT writes every register but the buffer, which has no valid byte after it (R80). -/
theorem Inv.openContext (h : Inv s) (s1 s2 : Word) : Inv (s.openContext s1 s2) where
  bufForm := h.bufForm
  pendingBound _ := (represents_openContext bheA s s1 s2).pending_lt
  counters _ := rfl
  validListed _ := nofun
  rawForm _ _ := rfl

/-- BUFFER lists the bytes it counts, and below one block it leaves the raw seeds in place (R82). -/
theorem Inv.bufferData (h : Inv s) (hv : s.valid = true)
    (ho : s.totalLength.toNat + data.length ≤ 2 ^ 64 - 1)
    (hp : s.pending.toNat + data.length < 96) : Inv (s.bufferData data) := by
  have hcounters := h.counters hv
  obtain ⟨hpending, htotal⟩ := s.bufferData_counters hp ho
  refine ⟨s.bufferData_wf h.bufForm hp.le, fun _ => hpending ▸ hp, fun _ => ?_, fun _ j hj => ?_,
    fun _ hraw => ?_⟩
  · rw [hpending, htotal]
    omega
  · rw [hpending] at hj
    rw [State.bufferData_read]
    split_ifs with hnew
    · rw [List.getElem?_eq_getElem (by omega), Option.isSome_some]
    · exact h.validListed hv j (by omega)
  · refine h.rawForm hv ?_
    rw [primed, decide_eq_false_iff_not] at hraw ⊢
    omega

/-- FLUSH lists the remainder it counts, and it has mixed a block, so nothing is required of the lanes
(R83). -/
theorem Inv.flushData (h : Inv s) (v : Variant) (hv : s.valid = true)
    (ho : s.totalLength.toNat + data.length ≤ 2 ^ 64 - 1)
    (hl : 96 ≤ s.pending.toNat + data.length) : Inv (s.flushData v data) := by
  have hp := h.pendingBound hv
  have hcounters := h.counters hv
  have hpending := s.flushData_pending v hp hl
  have htotal := s.flushData_totalLength v ho
  refine ⟨s.flushData_wf v h.bufForm hp hl, fun _ => by omega, fun _ => by omega, fun _ j hj => ?_,
    fun _ hraw => ?_⟩
  · rw [hpending] at hj
    have htail : j < (messageTail (s.validBytes ++ data)).length := by
      rw [messageTail_length, List.length_append, State.validBytes_length]
      exact hj
    rw [s.flushData_read v hp hl hj, List.getElem?_eq_getElem htail, Option.isSome_some]
  · rw [primed, decide_eq_false_iff_not] at hraw
    omega

theorem Inv.absorb (h : Inv s) (v : Variant) (hv : s.valid = true)
    (ho : s.totalLength.toNat + data.length ≤ 2 ^ 64 - 1) : Inv (s.absorb v data) := by
  rcases Nat.lt_or_ge (s.pending.toNat + data.length) 96 with hbuffer | hflush
  · rw [s.absorb_buffer v hbuffer]
    exact h.bufferData hv ho hbuffer
  · rw [s.absorb_flush v hflush]
    exact h.flushData v hv ho hflush

/-! ### The commands and the step -/

theorem Inv.exec (h : Inv s) {i : Instr} {t : State} (hexec : exec i s = .next t) : Inv t := by
  obtain ⟨_, -, hcase⟩ | ⟨_, -, -, hcase⟩ | ⟨_, -, hv, hfits, hcase⟩ | ⟨_, hcase⟩ := exec_cases i s
  all_goals obtain rfl := Host.Outcome.next.inj (hcase.symm.trans hexec)
  · exact h.answer _
  · exact (h.openContext _ _).answer _
  · exact (h.absorb bheA hv hfits).answer _
  · exact h.answer _

/-- Settles O46: each case of the step is an operation that keeps the invariant. -/
theorem stepKeepsInvariant : Obligations.StepKeepsInvariant := by
  unfold Obligations.StepKeepsInvariant
  intro s t h hstep
  obtain ⟨-, hidle⟩ | ⟨_, _, _, -, -, hrun⟩ | ⟨_, _, _, -, -, hreject⟩ | ⟨_, _, -, -, hreset⟩ :=
    step_cases s
  · exact Host.Outcome.next.inj (hidle.symm.trans hstep) ▸ h
  · exact h.takeEvent.exec (hrun.symm.trans hstep)
  · exact Host.Outcome.next.inj (hreject.symm.trans hstep) ▸ h.takeEvent.answer _
  · exact Host.Outcome.next.inj (hreset.symm.trans hstep) ▸ inv_applyReset _

theorem follows_reset : Follows bheA none State.reset := rfl

/-- Settles O45: with no context, the empty buffer's form is all there is to meet. -/
theorem resetMeetsInvariant : Obligations.ResetMeetsInvariant := by
  unfold Obligations.ResetMeetsInvariant
  exact ⟨rfl, inv_of_noContext State.reset_buf_wf rfl,
    tracks_iff.mpr ⟨State.reset_buf_wf, follows_reset⟩⟩

/-! ### Splitting an UPDATE (R81) -/

/-- The whole blocks of two byte strings in a row: those of the first, then those of its tail followed by
the second. -/
theorem mixBlocks_append_tail (v : Variant) (x : Lanes) (a b : List Byte) :
    mixBlocks v x (a ++ b) 0 ((a ++ b).length / 96) =
      mixBlocks v (mixBlocks v x a 0 (a.length / 96)) (messageTail a ++ b) 0
        ((messageTail a ++ b).length / 96) := by
  have hwhole : 96 * (a.length / 96) ≤ a.length := Nat.mul_div_le ..
  have htail : messageTail a ++ b = (a ++ b).drop (96 * (a.length / 96)) :=
    (List.drop_append_of_le_length hwhole).symm
  have hcount : (a ++ b).length / 96 = a.length / 96 + (messageTail a ++ b).length / 96 := by
    rw [List.length_append, List.length_append, messageTail_length]
    omega
  rw [hcount, mixBlocks_add, mixBlocks_append v ((Nat.zero_add _).trans_le hwhole), htail,
    mixBlocks_drop, Nat.zero_add, Nat.add_zero]

/-- UPDATE's valid bytes, on both branches: the tail of the valid bytes followed by the payload. -/
theorem absorb_validBytes (v : Variant) (hp : s.pending.toNat < 96) (data : List Byte) :
    (s.absorb v data).validBytes = messageTail (s.validBytes ++ data) := by
  rcases Nat.lt_or_ge (s.pending.toNat + data.length) 96 with hbuffer | hflush
  · rw [s.absorb_buffer v hbuffer, s.bufferData_validBytes hbuffer, messageTail_of_lt]
    rwa [List.length_append, State.validBytes_length]
  · rw [s.absorb_flush v hflush, s.flushData_validBytes v hp hflush]

/-- Below one block in all UPDATE leaves the lanes as they are (R82). -/
theorem Inv.absorb_h_of_lt (h : Inv s) (v : Variant) (hv : s.valid = true)
    (hlt : s.totalLength.toNat + data.length < 96) : (s.absorb v data).h = s.h := by
  have hcounters := h.counters hv
  rw [s.absorb_buffer v (by omega)]
  rfl

theorem primeOnce_h_of_le (v : Variant) (h : 96 ≤ s.totalLength.toNat) : (s.primeOnce v).h = s.h := by
  rw [State.primeOnce_h, if_neg (Nat.not_lt.mpr h)]

/-- UPDATE's lanes on both branches, with PRIME applied where it has not run yet: the whole blocks of the
valid bytes followed by the payload have been mixed. -/
theorem Inv.absorb_primeOnce_h (h : Inv s) (v : Variant) (hv : s.valid = true)
    (ho : s.totalLength.toNat + data.length ≤ 2 ^ 64 - 1) :
    ((s.absorb v data).primeOnce v).h =
      mixBlocks v (s.primeOnce v).h (s.validBytes ++ data) 0
        ((s.validBytes ++ data).length / 96) := by
  have hp := h.pendingBound hv
  have hcounters := h.counters hv
  rw [List.length_append, State.validBytes_length]
  rcases Nat.lt_or_ge (s.pending.toNat + data.length) 96 with hbuffer | hflush
  · obtain ⟨-, htotal⟩ := s.bufferData_counters hbuffer ho
    have hside : s.totalLength.toNat + data.length < 96 ↔ s.totalLength.toNat < 96 := by omega
    rw [s.absorb_buffer v hbuffer, Nat.div_eq_of_lt hbuffer, mixBlocks_zero, State.primeOnce_h,
      State.primeOnce_h, htotal]
    simp only [hside]
    rfl
  · have htotal := s.flushData_totalLength v ho
    rw [s.absorb_flush v hflush, primeOnce_h_of_le v (by omega), s.flushData_h v hp hflush,
      State.primeOnce_h]

/-- Two states without a difference in the flag, the count, the primed lanes and the valid bytes, and with
equal lanes while PRIME has not run, are alike: `pending` counts the valid bytes. -/
theorem alike_of_primeOnce {s t : State} (v : Variant) (hvalid : s.valid = t.valid)
    (htotal : s.totalLength.toNat = t.totalLength.toNat)
    (hbytes : s.validBytes = t.validBytes)
    (hraw : s.totalLength.toNat < 96 → s.h = t.h)
    (hprimed : (s.primeOnce v).h = (t.primeOnce v).h) : Alike s t where
  context := hvalid
  lanes _ := by
    rcases Nat.lt_or_ge s.totalLength.toNat 96 with hlt | hge
    · exact hraw hlt
    · rwa [primeOnce_h_of_le v hge, primeOnce_h_of_le v (htotal ▸ hge)] at hprimed
  pending _ := by
    apply BitVec.eq_of_toNat_eq
    rw [← s.validBytes_length, hbytes, t.validBytes_length]
  totalLength _ := BitVec.eq_of_toNat_eq htotal
  bytes _ := hbytes

/-- Settles O51: counts add up, the tail of a tail is the tail, and the blocks of both payloads are mixed
in the same order. -/
theorem splittingDoesNotMatter : Obligations.SplittingDoesNotMatter := by
  unfold Obligations.SplittingDoesNotMatter
  intro v s x y h hv ho
  have hfits : s.totalLength.toNat + x.length ≤ 2 ^ 64 - 1 := by omega
  have hfitsBoth : s.totalLength.toNat + (x ++ y).length ≤ 2 ^ 64 - 1 := by
    rw [List.length_append]
    omega
  have hx : Inv (s.absorb v x) := h.absorb v hv hfits
  have htotalX := State.absorb_totalLength v hfits
  obtain ⟨hvalidX, -⟩ := s.absorb_frame v x
  obtain ⟨hvalidXY, -⟩ := (s.absorb v x).absorb_frame v y
  obtain ⟨hvalidBoth, -⟩ := s.absorb_frame v (x ++ y)
  have hfitsY : (s.absorb v x).totalLength.toNat + y.length ≤ 2 ^ 64 - 1 := by omega
  have htotalXY := State.absorb_totalLength v hfitsY
  have htotalBoth := State.absorb_totalLength v hfitsBoth
  have hvx := hvalidX.trans hv
  rw [List.length_append] at htotalBoth
  have hbytesX := absorb_validBytes v (h.pendingBound hv) x
  refine alike_of_primeOnce v ?_ (by omega) ?_ (fun hlt => ?_) ?_
  · rw [hvalidXY, hvalidX, hvalidBoth]
  · rw [absorb_validBytes v (hx.pendingBound hvx), hbytesX,
      absorb_validBytes v (h.pendingBound hv), ← messageTail_append, List.append_assoc]
  · rw [hx.absorb_h_of_lt v hvx (by omega), h.absorb_h_of_lt v hv (by omega),
      h.absorb_h_of_lt v hv (by rw [List.length_append]; omega)]
  · rw [hx.absorb_primeOnce_h v hvx hfitsY, h.absorb_primeOnce_h v hv hfits, hbytesX,
      h.absorb_primeOnce_h v hv hfitsBoth, ← mixBlocks_append_tail, List.append_assoc]

/-! ### Runs and streams (R102, R138) -/

/-- Settles O48: a run from reset serves its events, beginning with no stream. -/
theorem runYieldsOwedResponses : Obligations.RunYieldsOwedResponses := by
  unfold Obligations.RunYieldsOwedResponses
  intro events
  have hstart : Follows bheA none { State.reset with port := events } := rfl
  obtain ⟨t, hrun, hserved⟩ := hstart.run rfl
  exact ⟨t, hrun, hserved.port, hserved.responses,
    tracks_iff.mpr ⟨hserved.form State.reset_buf_wf, hserved.stream⟩⟩

/-- UPDATEs that fit append their payloads in order to the message the state stands for. -/
theorem Represents.foldl_absorb {v : Variant} {t : Stream} (h : Represents v t s)
    (fragments : List (List Byte))
    (hfits : t.message.length + fragments.flatten.length < 2 ^ 64) :
    Represents v ⟨t.s1, t.s2, t.message ++ fragments.flatten⟩
      (fragments.foldl (State.absorb v) s) := by
  induction fragments generalizing s t with
  | nil => rwa [List.flatten_nil, List.append_nil]
  | cons f fs ih =>
    rw [List.flatten_cons, List.length_append] at hfits
    rw [List.flatten_cons, ← List.append_assoc, List.foldl_cons]
    exact ih (h.absorb (by omega)) (by rw [List.length_append]; omega)

/-- Settles O49: the context opened stands for the empty message, and the fragments absorbed for their
concatenation. -/
theorem streamingEquivalenceEveryVariant : Obligations.StreamingEquivalenceEveryVariant := by
  unfold Obligations.StreamingEquivalenceEveryVariant
  intro v s s1 s2 fragments hfits
  have hall : ([] : List Byte).length + fragments.flatten.length < 2 ^ 64 :=
    (Nat.zero_add _).trans_lt hfits
  exact ((represents_openContext v s s1 s2).foldl_absorb fragments hall).finalDigest_eq

end Sys2Proof.Safety
end

section
/-! R50 and R52, the other direction: a frame that decodes is cut into its command's fields and nothing
else, so it is the frame of that command. The opcode map (30_encoding.md section 5) reads the same
fields. -/

namespace Sys2Proof

open Sys2Proof.Machine

/-- What the frame of a command holds: its length, its command word, and where the operands are cut from
(R42 to R45). -/
def CutFrom (frame : List Byte) : Instr → Prop
  | .init key => leNat (frame.take 4) = 1 + 256 * key.length ∧ key.length ≤ 16 ∧
      frame.length = 4 + key.length ∧ slice frame 4 key.length = key
  | .update data => leNat (frame.take 4) = 2 ∧ frame.length = 12 + data.length ∧
      leNat (slice frame 4 8) = data.length ∧ frame.drop 12 = data
  | .final => leNat (frame.take 4) = 3 ∧ frame.length = 4
  | .oneshot key message => leNat (frame.take 4) = 4 + 256 * key.length ∧ key.length ≤ 16 ∧
      frame.length = 12 + key.length + message.length ∧ slice frame 4 key.length = key ∧
      leNat (slice frame (4 + key.length) 8) = message.length ∧
      frame.drop (12 + key.length) = message

theorem slice_length_of_le {s : List Byte} {i n : Nat} (h : i + n ≤ s.length) :
    (slice s i n).length = n := by
  rw [slice_length]
  omega

/-- The decoder's checks, passed one after another, give every field of the command (R50). -/
theorem cutFrom_of_decode {frame : List Byte} {i : Instr} (hd : decode frame = .ok i) :
    CutFrom frame i := by
  rw [decode_eq rfl rfl rfl, ite_error_ok_iff, ite_error_ok_iff] at hd
  obtain ⟨-, hrsv, hd⟩ := hd
  generalize hk : leNat (frame.take 4) / 256 % 32 = k at hd
  by_cases hinit : leNat (frame.take 4) % 256 = 1
  · rw [if_pos hinit, ite_error_ok_iff, ite_error_ok_iff] at hd
    obtain ⟨hkey, hlen, ⟨⟩⟩ := hd
    have hcut : (slice frame 4 k).length = k := slice_length_of_le (by omega)
    rw [CutFrom, hcut]
    exact ⟨by omega, by omega, by omega, rfl⟩
  rw [if_neg hinit] at hd
  by_cases hupdate : leNat (frame.take 4) % 256 = 2
  · rw [if_pos hupdate, ite_error_ok_iff, ite_error_ok_iff, ite_error_ok_iff] at hd
    obtain ⟨hkey, hshort, hlen, ⟨⟩⟩ := hd
    rw [CutFrom, List.length_drop]
    exact ⟨by omega, by omega, by omega, rfl⟩
  rw [if_neg hupdate] at hd
  by_cases hfinal : leNat (frame.take 4) % 256 = 3
  · rw [if_pos hfinal, ite_error_ok_iff, ite_error_ok_iff] at hd
    obtain ⟨hkey, hlen, ⟨⟩⟩ := hd
    exact ⟨by omega, by omega⟩
  rw [if_neg hfinal] at hd
  by_cases honeshot : leNat (frame.take 4) % 256 = 4
  · rw [if_pos honeshot, ite_error_ok_iff, ite_error_ok_iff, ite_error_ok_iff] at hd
    obtain ⟨hkey, hshort, hlen, ⟨⟩⟩ := hd
    have hcut : (slice frame 4 k).length = k := slice_length_of_le (by omega)
    rw [CutFrom, hcut, List.length_drop]
    exact ⟨by omega, by omega, by omega, rfl, by omega, rfl⟩
  rw [if_neg honeshot] at hd
  cases hd

/-! ### Putting the fields together -/

/-- The bytes of a field's value are the field. -/
theorem leBytes_of_leNat {s : List Byte} {n v : Nat} (hlen : s.length = n) (hv : leNat s = v) :
    leBytes n v = s := by
  rw [← hlen, ← hv, leBytes_leNat]

theorem commandWordBytes_eq_take {frame : List Byte} {opc k : Nat} (hlen : 4 ≤ frame.length)
    (hcw : leNat (frame.take 4) = opc + 256 * k) : commandWordBytes opc k = frame.take 4 :=
  leBytes_of_leNat (List.length_take_of_le hlen) hcw

theorem lenBytes_eq_slice {frame data : List Byte} {i : Nat} (hlen : i + 8 ≤ frame.length)
    (hfield : leNat (slice frame i 8) = data.length) : lenBytes data = slice frame i 8 :=
  leBytes_of_leNat (slice_length_of_le hlen) hfield

/-- A cut and the cut that follows it. -/
theorem take_append_slice (s : List Byte) (i n : Nat) : s.take i ++ slice s i n = s.take (i + n) :=
  List.take_add.symm

theorem encode_of_cutFrom {frame : List Byte} {i : Instr} (h : CutFrom frame i) :
    encode i = frame := by
  cases i with
  | init key =>
    obtain ⟨hcw, -, hlen, hkey⟩ := h
    rw [encode, commandWordBytes_eq_take (by omega) hcw]
    conv_lhs => rw [← hkey]
    rw [take_append_slice, ← hlen, List.take_length]
  | update data =>
    obtain ⟨hcw, hlen, hfield, hdata⟩ := h
    rw [encode, commandWordBytes_eq_take (by omega) hcw, lenBytes_eq_slice (by omega) hfield,
      take_append_slice, ← hdata, List.take_append_drop]
  | final =>
    obtain ⟨hcw, hlen⟩ := h
    rw [encode, commandWordBytes_eq_take (by omega) hcw, ← hlen, List.take_length]
  | oneshot key message =>
    obtain ⟨hcw, -, hlen, hkey, hfield, hmessage⟩ := h
    have hcuts : frame.take 4 ++ key = frame.take (4 + key.length) := by
      conv_lhs => rw [← hkey]
      rw [take_append_slice]
    have hoffset : 4 + key.length + 8 = 12 + key.length := by omega
    rw [encode, commandWordBytes_eq_take (by omega) hcw, lenBytes_eq_slice (by omega) hfield, hcuts,
      take_append_slice, hoffset]
    conv_lhs => rw [← hmessage]
    rw [List.take_append_drop]

/-- A payload that a frame's LEN field counts fits 64 bits. -/
theorem length_lt_of_field {frame data : List Byte} {i : Nat}
    (h : leNat (slice frame i 8) = data.length) : data.length < 2 ^ 64 := by
  rw [← h, ← le64_slice_toNat]
  exact (le64 (slice frame i 8)).isLt

theorem wellFormed_of_cutFrom {frame : List Byte} {i : Instr} (h : CutFrom frame i) :
    i.WellFormed := by
  cases i with
  | init key =>
    obtain ⟨-, hkey, -⟩ := h
    exact decide_eq_true hkey
  | update data =>
    obtain ⟨-, -, hfield, -⟩ := h
    exact decide_eq_true (length_lt_of_field hfield)
  | final => rfl
  | oneshot key message =>
    obtain ⟨-, hkey, -, -, hfield, -⟩ := h
    exact Bool.and_eq_true_iff.mpr
      ⟨decide_eq_true hkey, decide_eq_true (length_lt_of_field hfield)⟩

/-- Settles O1: the frame of each command read back. -/
theorem decodeOfEncode : Obligations.DecodeOfEncode := by
  unfold Obligations.DecodeOfEncode
  exact fun _ => decode_encode

/-- Settles O2: the fields a frame is cut into, put together again, are the frame. -/
theorem encodeOfDecode : Obligations.EncodeOfDecode := by
  unfold Obligations.EncodeOfDecode
  exact fun _ _ hd =>
    ⟨encode_of_cutFrom (cutFrom_of_decode hd), wellFormed_of_cutFrom (cutFrom_of_decode hd)⟩

/-- Settles O7: each frame written out is what the encoder gives for its command. -/
theorem writtenFramesDecode : Obligations.WrittenFramesDecode := by
  unfold Obligations.WrittenFramesDecode
  exact ⟨decode_encode (i := initSeeds 1 2) (by decide),
    decode_encode (i := .init [0x01, 0x02]) (by decide),
    decode_encode (i := .update [0x61, 0x62, 0x63]) (by decide),
    decode_encode_final,
    decode_encode (i := oneshotSeeds [0x61, 0x62, 0x63] 1 2) (by decide)⟩

/-! ### The opcode map -/

/-- A command word has no bit outside its three fields (R41). -/
theorem commandWord_ext {a b : BitVec 32} (hrsv : rsvField a = rsvField b)
    (hklen : klenField a = klenField b) (hopc : opcField a = opcField b) : a = b := by
  rw [← BitVec.toNat_inj, rsvField_toNat, rsvField_toNat] at hrsv
  rw [← BitVec.toNat_inj, klenField_toNat, klenField_toNat] at hklen
  rw [← BitVec.toNat_inj, opcField_toNat, opcField_toNat] at hopc
  apply BitVec.eq_of_toNat_eq
  omega

/-- A mask acts on each field by itself. -/
theorem accepts_iff_fields (r : OpcodeRow) (cw : BitVec 32) :
    r.accepts cw = true ↔ rsvField cw &&& rsvField r.mask = rsvField r.pattern ∧
      klenField cw &&& klenField r.mask = klenField r.pattern ∧
      opcField cw &&& opcField r.mask = opcField r.pattern := by
  have hand (start len : Nat) : (cw &&& r.mask).extractLsb' start len =
      cw.extractLsb' start len &&& r.mask.extractLsb' start len := BitVec.extractLsb'_and
  rw [OpcodeRow.accepts, beq_iff_eq]
  constructor
  · intro h
    rw [← h]
    exact ⟨(hand 13 19).symm, (hand 8 5).symm, (hand 0 8).symm⟩
  · rintro ⟨hrsv, hklen, hopc⟩
    exact commandWord_ext ((hand 13 19).trans hrsv) ((hand 8 5).trans hklen) ((hand 0 8).trans hopc)

/-- The rows of INIT and ONESHOT leave KLEN open. -/
theorem accepts_anyKey_iff (m : String) {c : Nat} (hc : c < 256) (cw : BitVec 32) :
    (OpcodeRow.mk m 0xFFFFE0FF (BitVec.ofNat 32 c)).accepts cw = true ↔
      cw.toNat / 8192 = 0 ∧ cw.toNat % 256 = c := by
  have hrsv : rsvField (BitVec.ofNat 32 c) = 0 := by
    rw [rsvField_eq_zero, BitVec.toNat_ofNat]
    omega
  have hklen : klenField (BitVec.ofNat 32 c) = 0 := by
    rw [klenField_eq_zero, BitVec.toNat_ofNat]
    omega
  have hopc : opcField (BitVec.ofNat 32 c) = BitVec.ofNat 8 c := by
    rw [opcField_eq _ hc, BitVec.toNat_ofNat]
    omega
  have hmaskRsv : rsvField 0xFFFFE0FF = BitVec.allOnes 19 := by decide
  have hmaskKlen : klenField 0xFFFFE0FF = 0#5 := by decide
  have hmaskOpc : opcField 0xFFFFE0FF = BitVec.allOnes 8 := by decide
  rw [accepts_iff_fields, hrsv, hklen, hopc, hmaskRsv, hmaskKlen, hmaskOpc, BitVec.and_allOnes,
    BitVec.and_zero, BitVec.and_allOnes, rsvField_eq_zero, opcField_eq cw hc]
  simp

/-- The rows of UPDATE and FINAL are one command word each. -/
theorem accepts_noKey_iff (m : String) {c : Nat} (hc : c < 256) (cw : BitVec 32) :
    (OpcodeRow.mk m 0xFFFFFFFF (BitVec.ofNat 32 c)).accepts cw = true ↔ cw.toNat = c := by
  have hall : cw &&& 0xFFFFFFFF = cw := BitVec.and_allOnes
  rw [OpcodeRow.accepts, beq_iff_eq, hall, ← BitVec.toNat_inj, BitVec.toNat_ofNat,
    Nat.mod_eq_of_lt (by omega)]

/-- A command word that matches a row has the row's opcode. -/
theorem opcode_of_accepts {r : OpcodeRow} (hr : r ∈ opcodeTable) {cw : BitVec 32}
    (h : r.accepts cw = true) : r.pattern.toNat = cw.toNat % 256 := by
  simp only [opcodeTable, List.mem_cons, List.not_mem_nil, or_false] at hr
  obtain rfl | rfl | rfl | rfl := hr
  · exact ((accepts_anyKey_iff _ (by decide) cw).mp h).2.symm
  · exact (congrArg (· % 256) ((accepts_noKey_iff _ (by decide) cw).mp h)).symm
  · exact (congrArg (· % 256) ((accepts_noKey_iff _ (by decide) cw).mp h)).symm
  · exact ((accepts_anyKey_iff _ (by decide) cw).mp h).2.symm

/-- No two rows have one opcode, so no word matches two rows. -/
theorem length_filter_accepts_le_one (cw : BitVec 32) :
    (opcodeTable.filter fun r => r.accepts cw).length ≤ 1 := by
  have hdistinct : (opcodeTable.map fun r => r.pattern.toNat).Nodup := by decide
  calc (opcodeTable.filter fun r => r.accepts cw).length
      = opcodeTable.countP fun r => r.accepts cw := List.countP_eq_length_filter.symm
    _ ≤ opcodeTable.countP fun r => r.pattern.toNat == cw.toNat % 256 :=
        List.countP_mono_left fun r hr h => beq_iff_eq.mpr (opcode_of_accepts hr h)
    _ = (opcodeTable.map fun r => r.pattern.toNat).count (cw.toNat % 256) := by
        rw [List.count, List.countP_map]; rfl
    _ ≤ 1 := List.nodup_iff_count_le_one.mp hdistinct _

/-- The words that match no row are those of R111. -/
theorem illegal_iff_no_row {frame : List Byte} (hlen : 4 ≤ frame.length) :
    decode frame = .error .illegalCmd ↔
      ∀ r ∈ opcodeTable, r.accepts (le32 (frame.take 4)) = false := by
  have hcw := le32_take_toNat frame
  generalize le32 (frame.take 4) = cw at hcw
  have hinit : (OpcodeRow.mk "INIT" 0xFFFFE0FF 0x00000001).accepts cw = true ↔ _ :=
    accepts_anyKey_iff _ (c := 1) (by decide) cw
  have hupdate : (OpcodeRow.mk "UPDATE" 0xFFFFFFFF 0x00000002).accepts cw = true ↔ _ :=
    accepts_noKey_iff _ (c := 2) (by decide) cw
  have hfinal : (OpcodeRow.mk "FINAL" 0xFFFFFFFF 0x00000003).accepts cw = true ↔ _ :=
    accepts_noKey_iff _ (c := 3) (by decide) cw
  have honeshot : (OpcodeRow.mk "ONESHOT" 0xFFFFE0FF 0x00000004).accepts cw = true ↔ _ :=
    accepts_anyKey_iff _ (c := 4) (by decide) cw
  rw [decode_error_iff, opcodeTable, List.forall_mem_cons, List.forall_mem_cons,
    List.forall_mem_cons, List.forall_mem_singleton]
  simp only [RejectCause, ← hcw, Bool.eq_false_iff, ne_eq, hinit, hupdate, hfinal, honeshot, List.mem_cons,
    List.not_mem_nil, or_false]
  omega

/-- The row of a command in the opcode map. -/
def rowOf : Instr → OpcodeRow
  | .init _ => ⟨"INIT", 0xFFFFE0FF, 0x00000001⟩
  | .update _ => ⟨"UPDATE", 0xFFFFFFFF, 0x00000002⟩
  | .final => ⟨"FINAL", 0xFFFFFFFF, 0x00000003⟩
  | .oneshot _ _ => ⟨"ONESHOT", 0xFFFFE0FF, 0x00000004⟩

theorem rowOf_mem (i : Instr) : rowOf i ∈ opcodeTable := by
  cases i <;> simp [rowOf, opcodeTable]

theorem rowOf_accepts {frame : List Byte} {i : Instr} (h : CutFrom frame i) :
    (rowOf i).accepts (le32 (frame.take 4)) = true := by
  have hcw := le32_take_toNat frame
  cases i with
  | init key =>
    obtain ⟨hword, hkey, -⟩ := h
    exact (accepts_anyKey_iff _ (c := 1) (by decide) _).mpr (by omega)
  | update data =>
    obtain ⟨hword, -⟩ := h
    exact (accepts_noKey_iff _ (c := 2) (by decide) _).mpr (hcw.trans hword)
  | final =>
    obtain ⟨hword, -⟩ := h
    exact (accepts_noKey_iff _ (c := 3) (by decide) _).mpr (hcw.trans hword)
  | oneshot key message =>
    obtain ⟨hword, hkey, -⟩ := h
    exact (accepts_anyKey_iff _ (c := 4) (by decide) _).mpr (by omega)

/-- Settles O6: a row is matched by the fields of the command word, and the decoder reads the same
fields. -/
theorem opcodeRowsDecide : Obligations.OpcodeRowsDecide := by
  unfold Obligations.OpcodeRowsDecide
  refine ⟨length_filter_accepts_le_one, fun _ => illegal_iff_no_row, fun frame i hd => ?_⟩
  exact ⟨rowOf i, rowOf_mem i, rowOf_accepts (cutFrom_of_decode hd), by cases i <;> rfl⟩

end Sys2Proof
end

section
/-! R33 and R86: the words of byte strings, and the bytes of the final block. -/

namespace Sys2Proof.Machine

/-! ### Little-endian words (R33) -/

/-- The value of a byte string as the sum of its weighted bytes. -/
theorem leNat_eq_sum (s : List Byte) :
    leNat s = ∑ k ∈ Finset.range s.length, (s.getD k 0).toNat * 2 ^ (8 * k) := by
  induction s with
  | nil => rfl
  | cons b s ih =>
    have hshift (k : Nat) : (s.getD k 0).toNat * 2 ^ (8 * (k + 1)) =
        256 * ((s.getD k 0).toNat * 2 ^ (8 * k)) := by
      rw [Nat.mul_succ, pow_add]
      ring
    rw [leNat, ih, Finset.mul_sum, List.length_cons, Finset.sum_range_succ', add_comm]
    simp only [List.getD_cons_succ, hshift, List.getD_cons_zero, Nat.mul_zero, pow_zero, mul_one]

theorem le64_toNat_eq_sum {s : List Byte} (h : s.length = 8) :
    (le64 s).toNat = ∑ k ∈ Finset.range 8, (s.getD k 0).toNat * 2 ^ (8 * k) := by
  rw [le64_toNat h.le, leNat_eq_sum, h]

theorem bytesLE64_le64 {s : List Byte} (h : s.length = 8) : bytesLE64 (le64 s) = s := by
  rw [bytesLE64, le64_toNat h.le]
  exact leBytes_of_leNat h rfl

theorem slice_getD {s : List Byte} {n k : Nat} (hk : k < n) (i : Nat) :
    (slice s i n).getD k 0 = s.getD (i + k) 0 := by
  rw [slice, List.getD_eq_getElem?_getD, List.getElem?_take_of_lt hk, List.getElem?_drop,
    List.getD_eq_getElem?_getD]

/-- Settles O10: the value of a string is the sum of its weighted bytes, and a lane's string is cut out
of the block. -/
theorem littleEndianWords : Obligations.LittleEndianWords := by
  unfold Obligations.LittleEndianWords
  refine ⟨fun s h => ⟨le64_toNat_eq_sum h, bytesLE64_le64 h⟩, le64_bytesLE64, fun blk i hi => ?_⟩
  have hcut : (slice blk.toList (8 * i) 8).length = 8 :=
    slice_length_of_le (by rw [Vector.length_toList]; omega)
  rw [blockLane, le64_toNat_eq_sum hcut]
  refine Finset.sum_congr rfl fun k hk => ?_
  rw [slice_getD (Finset.mem_range.mp hk)]

/-! ### The final block (R86) -/

/-- Byte 95 tells the length, and that many bytes of the block are the tail. -/
theorem finalBlock_injective {t u : List Byte} (ht : t.length ≤ 95) (hu : u.length ≤ 95)
    (h : finalBlock t = finalBlock u) : t = u := by
  have hlist := congrArg Vector.toList h
  rw [finalBlock_toList ht, finalBlock_toList hu] at hlist
  obtain ⟨hpadded, hcount⟩ := List.append_inj' hlist rfl
  have hlen : t.length = u.length := by
    have hbyte := congrArg BitVec.toNat (List.singleton_inj.mp hcount)
    rw [BitVec.toNat_ofNat, BitVec.toNat_ofNat] at hbyte
    omega
  obtain ⟨htail, -⟩ := List.append_inj hpadded hlen
  exact htail

/-- Settles O20: the block's bytes are known, and they give the tail back. -/
theorem finalBlockEmbedsTail : Obligations.FinalBlockEmbedsTail := by
  unfold Obligations.FinalBlockEmbedsTail
  exact fun _ ht => ⟨finalBlock_toList ht, fun _ hu => finalBlock_injective ht hu⟩

end Sys2Proof.Machine
end

section
/-! R62, R63 and R70: what the mixing operations keep apart. Each assignment of STEP rewrites one lane by
a map that another lane undoes; a product with an odd multiplier and a rotation lose nothing. -/

namespace Sys2Proof.Machine

open Sys2Proof.Config

/-! ### Rotations and products lose nothing -/

/-- A count past the word gives the operand back (log 12). -/
theorem rotl64_of_ge (x : Word) {r : Nat} (h : 64 ≤ r) : rotl64 x r = x := by
  have hright : 64 - r = 0 := Nat.sub_eq_zero_of_le h
  rw [rotl64_of_pos x (by omega), BitVec.shiftLeft_eq_zero h, hright, BitVec.ushiftRight_zero,
    BitVec.zero_or]

theorem rotr64_of_ge (x : Word) {r : Nat} (h : 64 ≤ r) : rotr64 x r = x := by
  rw [rotr64, Nat.sub_eq_zero_of_le h, Nat.zero_mod, rotl64_zero]

theorem rotr64_rotl64_cancel (x : Word) (r : Nat) : rotr64 (rotl64 x r) r = x := by
  rcases Nat.lt_or_ge r 64 with hlt | hge
  · exact rotr64_rotl64 x hlt
  · rw [rotl64_of_ge x hge, rotr64_of_ge x hge]

theorem rotl64_rotr64_cancel (x : Word) (r : Nat) : rotl64 (rotr64 x r) r = x := by
  rcases Nat.lt_or_ge r 64 with hlt | hge
  · exact rotl64_rotr64 x hlt
  · rw [rotr64_of_ge x hge, rotl64_of_ge x hge]

theorem rotl64_injective (r : Nat) : Function.Injective (rotl64 · r) :=
  Function.LeftInverse.injective (g := (rotr64 · r)) fun x => rotr64_rotl64_cancel x r

/-- An odd multiplier is prime to 2^64. -/
theorem mul_odd_injective {k : Word} (hk : k.toNat % 2 = 1) : Function.Injective (· * k) := by
  intro x y h
  have hmod : x.toNat * k.toNat ≡ y.toNat * k.toNat [MOD 2 ^ 64] := by
    have hnat := congrArg BitVec.toNat h
    rwa [BitVec.toNat_mul, BitVec.toNat_mul] at hnat
  have hcoprime : Nat.gcd (2 ^ 64) k.toNat = 1 :=
    Nat.Coprime.pow_left 64 (Nat.coprime_two_left.mpr (Nat.odd_iff.mpr hk))
  exact BitVec.eq_of_toNat_eq
    ((Nat.ModEq.cancel_right_of_coprime hcoprime hmod).eq_of_lt_of_lt x.isLt y.isLt)

/-! ### STEP and BLOCKMIX undone (R62) -/

/-- Rewrite lane `k` by a map of it and of lane `j`. -/
def rewriteLane (f : Word → Word → Word) (k j : Fin 12) (x : Lanes) : Lanes :=
  putLane x k (f x[k] x[j])

theorem putLane_self (x : Lanes) (k : Fin 12) : putLane x k x[k] = x :=
  Vector.set_getElem_self k.isLt

/-- What another lane undoes is undone, for the other lane has not changed. -/
theorem rewriteLane_cancel {f g : Word → Word → Word} (hfg : ∀ a b, g (f a b) b = a) {k j : Fin 12}
    (hjk : j ≠ k) (x : Lanes) : rewriteLane g k j (rewriteLane f k j x) = x := by
  rw [rewriteLane, rewriteLane, putLane_getElem_self, putLane_getElem_of_ne hjk, hfg,
    putLane_putLane, putLane_self]

/-- STEP as four rewritings (R61). -/
theorem mixStep_eq_rewriteLane (v : Variant) (i : Fin 12) (d : Word) (x : Lanes) :
    mixStep v i d x =
      rewriteLane (· + ·) (laneC v i) (laneB v i) (rewriteLane (· ^^^ ·) (laneB v i) i
        (rewriteLane (fun a _ => rotl64 a v.rot[i]) (laneB v i) i
          (rewriteLane (fun a _ => a + d) i (laneB v i) x))) := rfl

/-- UNSTEP as the four that undo them, in reverse order (R62). -/
theorem unmixStep_eq_rewriteLane (v : Variant) (i : Fin 12) (d : Word) (x : Lanes) :
    unmixStep v i d x =
      rewriteLane (fun a _ => a - d) i (laneB v i)
        (rewriteLane (fun a _ => rotr64 a v.rot[i]) (laneB v i) i
          (rewriteLane (· ^^^ ·) (laneB v i) i
            (rewriteLane (· - ·) (laneC v i) (laneB v i) x))) := rfl

section
variable {v : Variant} (h : v.DistinctWiring) (i : Fin 12) (d : Word) (x : Lanes)
include h

theorem unmixStep_mixStep : unmixStep v i d (mixStep v i d x) = x := by
  have hpropagate := rewriteLane_cancel (f := (· + ·)) (g := (· - ·)) BitVec.add_sub_cancel
    (laneC_ne_laneB h i).symm
  have hxor := rewriteLane_cancel (f := (· ^^^ ·)) (g := (· ^^^ ·))
    xor_cancel_right (laneB_ne h i).symm
  have hrotate := rewriteLane_cancel (f := fun a _ => rotl64 a v.rot[i])
    (g := fun a _ => rotr64 a v.rot[i]) (fun a _ => rotr64_rotl64_cancel a _) (laneB_ne h i).symm
  have hadd := rewriteLane_cancel (f := fun a _ => a + d) (g := fun a _ => a - d)
    (fun a _ => BitVec.add_sub_cancel a d) (laneB_ne h i)
  rw [mixStep_eq_rewriteLane, unmixStep_eq_rewriteLane, hpropagate, hxor, hrotate, hadd]

theorem mixStep_unmixStep : mixStep v i d (unmixStep v i d x) = x := by
  have hpropagate := rewriteLane_cancel (f := (· - ·)) (g := (· + ·)) BitVec.sub_add_cancel
    (laneC_ne_laneB h i).symm
  have hxor := rewriteLane_cancel (f := (· ^^^ ·)) (g := (· ^^^ ·))
    xor_cancel_right (laneB_ne h i).symm
  have hrotate := rewriteLane_cancel (f := fun a _ => rotr64 a v.rot[i])
    (g := fun a _ => rotl64 a v.rot[i]) (fun a _ => rotl64_rotr64_cancel a _) (laneB_ne h i).symm
  have hadd := rewriteLane_cancel (f := fun a _ => a - d) (g := fun a _ => a + d)
    (fun a _ => BitVec.sub_add_cancel a d) (laneB_ne h i)
  rw [mixStep_eq_rewriteLane, unmixStep_eq_rewriteLane, hadd, hrotate, hxor, hpropagate]

end

/-- Steps undone one by one, the last first, are undone together. -/
theorem foldl_reverse_cancel {α β : Type} {f g : β → α → β} (hgf : ∀ x a, g (f x a) a = x)
    (l : List α) (x : β) : l.reverse.foldl g (l.foldl f x) = x := by
  induction l generalizing x with
  | nil => rfl
  | cons a l ih =>
    have hfirst : (a :: l).foldl f x = l.foldl f (f x a) := rfl
    rw [List.reverse_cons, List.foldl_append, hfirst, ih]
    exact hgf x a

theorem unblockmix_blockmix {v : Variant} (h : v.DistinctWiring) (blk : Block) (x : Lanes) :
    unblockmix v (blockmix v x blk) blk = x :=
  foldl_reverse_cancel (fun y i => unmixStep_mixStep h i _ y) stepOrder x

theorem blockmix_unblockmix {v : Variant} (h : v.DistinctWiring) (blk : Block) (x : Lanes) :
    blockmix v (unblockmix v x blk) blk = x := by
  have hcancel := foldl_reverse_cancel (g := fun y i => mixStep v i (blockLane blk i.val) y)
    (fun y i => mixStep_unmixStep h i _ y) stepOrder.reverse x
  rwa [List.reverse_reverse] at hcancel

/-- Settles O14: the backwards steps are an inverse on both sides. -/
theorem blockmixReversible : Obligations.BlockmixReversible := by
  unfold Obligations.BlockmixReversible
  intro v h blk
  have hleft := unblockmix_blockmix h blk
  have hright := blockmix_unblockmix h blk
  exact ⟨hleft, hright, Function.bijective_iff_has_inverse.mpr
    ⟨fun x => unblockmix v x blk, hleft, hright⟩⟩

/-! ### PRIME and CHUNKMIX keep their inputs apart (R63, R70) -/

theorem prime_group (v : Variant) (s1 s2 : Word) (g : Fin 4) :
    (prime v s1 s2).toList[3 * g.val]? = some (s1 * v.kg[g]) ∧
      (prime v s1 s2).toList[3 * g.val + 1]? = some (s2 * v.kg[g]) ∧
      (prime v s1 s2).toList[3 * g.val + 2]? = some v.kg[g] := by
  fin_cases g <;> exact ⟨rfl, rfl, rfl⟩

/-- Settles O15: the two products of a group with an odd multiplier give the seeds back. -/
theorem primeSpreadsSeeds : Obligations.PrimeSpreadsSeeds := by
  unfold Obligations.PrimeSpreadsSeeds
  refine fun v s1 s2 => ⟨prime_group v s1 s2, fun g t1 t2 hodd heq => ?_⟩
  obtain ⟨hs1, hs2, -⟩ := prime_group v s1 s2 g
  obtain ⟨ht1, ht2, -⟩ := prime_group v t1 t2 g
  rw [heq] at hs1 hs2
  exact ⟨mul_odd_injective hodd (Option.some.inj (hs1.symm.trans ht1)),
    mul_odd_injective hodd (Option.some.inj (hs2.symm.trans ht2))⟩

/-- The new `b` gives the old `b` back through the new `a`, and then the new `a` the old `a`. -/
theorem chunkmix_injective {v : Variant} (ha : v.ka.toNat % 2 = 1) (hb : v.kb.toNat % 2 = 1)
    (w0 w1 : Word) : Function.Injective fun acc => chunkmix v acc w0 w1 := by
  rintro ⟨a, b⟩ ⟨a', b'⟩ h
  obtain ⟨hA, hB⟩ := Prod.ext_iff.mp h
  simp only [chunkmix] at hA hB
  rw [hA] at hB
  have hb' : b = b' := (add_left_injective w1) <| mul_odd_injective hb <|
    rotl64_injective v.rb <| add_left_injective _ hB
  subst hb'
  have ha' : a = a' := (add_left_injective w0) <| mul_odd_injective ha <|
    rotl64_injective v.ra <| add_left_injective _ hA
  rw [ha']

/-- Settles O16: a map of a finite set into itself that keeps its points apart is a bijection. -/
theorem chunkmixReversible : Obligations.ChunkmixReversible := by
  unfold Obligations.ChunkmixReversible
  refine ⟨fun v ha hb w0 w1 => ?_, by decide, by decide⟩
  exact Finite.injective_iff_bijective.mp (chunkmix_injective ha hb w0 w1)

end Sys2Proof.Machine
end

section
/-! R32 and R124: a system of instances. A step of one of them replaces its state by the next one and
touches no other place of the list. -/

namespace Sys2Proof.Machine

/-- The state a step answers. -/
def nextState (s : State) : State :=
  match step s with
  | .next t => t
  | _ => s

theorem step_eq_nextState (s : State) : step s = .next (nextState s) := by
  obtain ⟨t, ht⟩ := stepAlwaysAnswers s
  rw [nextState, ht]

/-- A number past the end of the list changes no place. -/
theorem systemStep_eq (k : Nat) (sys : List State) :
    systemStep k sys = .next (sys.modify k nextState) := by
  cases hk : sys[k]? with
  | none =>
    have hbound : sys.length ≤ k := List.getElem?_eq_none_iff.mp hk
    simp only [systemStep, hk]
    rw [List.modify_eq_self hbound]
  | some s =>
    have : Inhabited State := ⟨s⟩
    simp only [systemStep, hk, step_eq_nextState s]
    rw [List.modify_eq_set, hk, Option.getD_some]

/-- Settles O54: steps of different instances replace different places of the list. -/
theorem instancesAreIndependent : Obligations.InstancesAreIndependent := by
  unfold Obligations.InstancesAreIndependent
  intro sys j k hne
  refine ⟨_, _, _, systemStep_eq j sys, systemStep_eq k sys, systemStep_eq k _, ?_,
    List.getElem?_modify_ne _ _ hne, fun s hs => ⟨nextState s, step_eq_nextState s, ?_, ?_⟩⟩
  · rw [systemStep_eq, List.modify_modify_ne _ _ _ hne]
  · rw [List.getElem?_modify_eq, hs, Option.map_eq_map, Option.map_some]
  · rw [List.getElem?_modify_ne _ _ hne.symm, List.getElem?_modify_eq, hs, Option.map_eq_map,
      Option.map_some]

end Sys2Proof.Machine
end

section
/-! The stated inputs of 95_test_vectors.md, at which BHE-A is evaluated. -/

namespace Sys2Proof.Safety

open Sys2Proof.Machine Sys2Proof.Config

/-- Settles O21: two messages on the short path and one of a whole block. -/
theorem digestVectors : Obligations.DigestVectors := by
  unfold Obligations.DigestVectors
  exact ⟨by decide, by decide, by decide +kernel⟩

/-- Settles O55: three evaluations of the short path. -/
theorem seedSensitivityAtStatedInputs : Obligations.SeedSensitivityAtStatedInputs := by
  unfold Obligations.SeedSensitivityAtStatedInputs
  decide

/-- Two fragments are digested as their concatenation (R102). -/
theorem finalDigest_two_fragments (v : Variant) (s : State) (s1 s2 : Word) {x y : List Byte}
    (hfits : x.length + y.length < 2 ^ 64) :
    (((s.openContext s1 s2).absorb v x).absorb v y).finalDigest v = digest v (x ++ y) s1 s2 := by
  have hflatten : [x, y].flatten = x ++ y := by simp
  have hdigest := streamingEquivalenceEveryVariant v s s1 s2 [x, y]
    (by rwa [hflatten, List.length_append])
  rwa [hflatten] at hdigest

/-- Settles O56: the order shows in the concatenation, which `ab` and `abab` leave the same. -/
theorem fragmentOrderMatters : Obligations.FragmentOrderMatters := by
  unfold Obligations.FragmentOrderMatters
  intro run a
  have hrun (x y : List Byte) (hfits : x.length + y.length < 2 ^ 64) :
      run x y = digest bheA (x ++ y) 1 2 := finalDigest_two_fragments bheA State.reset 1 2 hfits
  rw [hrun a a.reverse (by decide), hrun a.reverse a (by decide), hrun _ _ (by decide),
    hrun _ _ (by decide)]
  exact ⟨by decide +kernel, rfl⟩

end Sys2Proof.Safety
end
